-- ==== Sys2Proof/Word.lean ====
section
/-! DEFINITION. The machine word: what a register, a memory cell, the program counter and an instruction word hold
(00_scope.md R7, R12, R14). -/

namespace Sys2Proof

/-- A 32-bit pattern (00_scope.md R14). -/
abbrev Word := BitVec 32

end Sys2Proof
end

