-- ==== Sys2Proof/Machine/Arith.lean ====
section
/-! DEFINITION. The arithmetic notation of 00_scope.md R14 and R15: signed values, truncation, division toward zero. -/

namespace Sys2Proof.Machine

/-- `s32(v)`: the two's-complement value of a pattern (R14). -/
abbrev s32 (v : Word) : Int := v.toInt

/-- `trunc32(z)`: the pattern `z mod 2^32` (R14). -/
abbrev trunc32 (z : Int) : Word := BitVec.ofInt 32 z

/-- `INT_MIN = -2^31` (R14). -/
abbrev intMin : Int := -2147483648

/-- `INT_MAX = 2^31 - 1` (R14). -/
abbrev intMax : Int := 2147483647

/-- `sign(v) = v[31]` (41_alu.md R110). -/
def sign (v : Word) : Bool := v.getLsbD 31

/-- `quot_tz(a, b)`: the quotient rounded toward zero (R15). -/
abbrev quotTz (a b : Int) : Int := a.tdiv b

/-- `div32(a, b) = trunc32(quot_tz(s32(a), s32(b)))` (R15), so `INT_MIN / -1` wraps to `INT_MIN` (log 11). -/
def div32 (a b : Word) : Word := trunc32 (quotTz (s32 a) (s32 b))

end Sys2Proof.Machine
end

