-- ==== Sys2Proof/Config.lean ====
section
/-! DEFINITION. The implementation parameters of 00_scope.md section 3. They are fixed for a run; `State` carries them so
that a step, which takes a state alone, can read them (log 2). The spec leaves no value of an executed instruction
undefined, so there is no free value here. -/

namespace Sys2Proof

/-- The parameters an engine is constructed with (00_scope.md R8 to R10). STEP_INTERVAL is omitted, as R11 allows
(log 25). -/
structure Params where
  /-- STEP_BUDGET (R8): how many instructions may execute before the core halts. -/
  stepBudget : Nat
  /-- PROG_CAPACITY (R9): how many words the program store can take. -/
  progCapacity : Nat
  /-- ENC_LEGACY_OVERLAP (R10): the third operand is bits 15:0 instead of bits 7:0. -/
  legacyOverlap : Bool
deriving DecidableEq, Repr

/-- The bound R9 puts on a capacity. -/
def Params.capacityOk (p : Params) : Bool := decide (p.progCapacity < 4294967295)

/-- The defaults of R8 and R10. DESIGN CHOICE (log 3): R9 leaves the capacity open; this one is the largest it admits. -/
def Params.default : Params where
  stepBudget := 1000
  progCapacity := 4294967294
  legacyOverlap := false

end Sys2Proof
end

