-- ==== Sys2Proof/Syntax.lean ====
section
/-! DEFINITION. The sixteen instructions of 30_encoding.md R62, one constructor for each row of the opcode table, with
the operand fields of R57 as the word holds them. A register field is the raw 8-bit field: values 8 to 255 decode, and
fault when executed (R66). The third operand `c` is 16 bits wide so that one syntax serves both layouts of R58
(log 9). -/

namespace Sys2Proof

/-- An instruction with its field values (30_encoding.md R57, R62, R68). -/
inductive Instr where
  | mov (a : BitVec 8) (imm16 : BitVec 16)
  | add (a b : BitVec 8) (c : BitVec 16)
  | sub (a b : BitVec 8) (c : BitVec 16)
  | mul (a b : BitVec 8) (c : BitVec 16)
  | div (a b : BitVec 8) (c : BitVec 16)
  | and (a b : BitVec 8) (c : BitVec 16)
  | or (a b : BitVec 8) (c : BitVec 16)
  | str (a : BitVec 8) (imm16 : BitVec 16)
  | ld (a : BitVec 8) (imm16 : BitVec 16)
  | jmp (imm16 : BitVec 16)
  | jmpe (a b : BitVec 8) (c : BitVec 16)
  | jmpn (a b : BitVec 8) (c : BitVec 16)
  | jmpg (a b : BitVec 8) (c : BitVec 16)
  | jmpl (a b : BitVec 8) (c : BitVec 16)
  | jmpr (a : BitVec 8)
  | nop
deriving DecidableEq, Repr

/-- What a word decodes to (30_encoding.md R67): an instruction, or an undefined opcode carrying its byte. -/
inductive Decoded where
  | instr (i : Instr)
  | undefined (op : BitVec 8)
deriving DecidableEq, Repr

end Sys2Proof
end

