-- ==== Sys2Proof/WellFormed.lean ====
section
/-! DEFINITION. Which instruction terms a layout can encode (30_encoding.md R58, R69). Only the third operand is
constrained: every other field takes every value of its width (R64, R66). -/

namespace Sys2Proof

/-- R58: by default C is 8 bits wide; under the legacy layout C is `B * 256 + w[7:0]`, so its high byte is B. -/
def thirdFieldFits (legacy : Bool) (b : BitVec 8) (c : BitVec 16) : Bool :=
  if legacy then decide (c.extractLsb' 8 8 = b) else decide (c.toNat < 256)

/-- An instruction that some word encodes under the layout. -/
def Instr.wellFormed (legacy : Bool) : Instr → Bool
  | .mov _ _ => true
  | .add _ b c => thirdFieldFits legacy b c
  | .sub _ b c => thirdFieldFits legacy b c
  | .mul _ b c => thirdFieldFits legacy b c
  | .div _ b c => thirdFieldFits legacy b c
  | .and _ b c => thirdFieldFits legacy b c
  | .or _ b c => thirdFieldFits legacy b c
  | .str _ _ => true
  | .ld _ _ => true
  | .jmp _ => true
  | .jmpe _ b c => thirdFieldFits legacy b c
  | .jmpn _ b c => thirdFieldFits legacy b c
  | .jmpg _ b c => thirdFieldFits legacy b c
  | .jmpl _ b c => thirdFieldFits legacy b c
  | .jmpr _ => true
  | .nop => true

end Sys2Proof
end

