-- ==== Sys2Proof/Decode.lean ====
section
/-! DEFINITION. The decoder of 30_encoding.md R56 to R68 and the encoder of R69 and R82. Both work on whole words:
the spec gives a word no byte order and no byte view (20_memory.md R41). -/

namespace Sys2Proof

/-- `w[31:24]` (R56). -/
def opcodeField (w : Word) : BitVec 8 := w.extractLsb' 24 8

/-- `A = w[23:16]` (R56). -/
def fieldA (w : Word) : BitVec 8 := w.extractLsb' 16 8

/-- `B = w[15:8]` (R56). -/
def fieldB (w : Word) : BitVec 8 := w.extractLsb' 8 8

/-- `imm16 = w[15:0]` (R56). -/
def imm16Field (w : Word) : BitVec 16 := w.extractLsb' 0 16

/-- The third operand of format R3: `w[7:0]` by default, `w[15:0]` under the legacy layout (R58). -/
def fieldC (legacy : Bool) (w : Word) : BitVec 16 :=
  if legacy then imm16Field w else (w.extractLsb' 0 8).setWidth 16

/-- `decode(w)` of R68: total, by the opcode byte alone (R63); every other byte is rejected by name (R65). -/
def decode (legacy : Bool) (w : Word) : Decoded :=
  match opcodeField w with
  | 0x01#8 => .instr (.mov (fieldA w) (imm16Field w))
  | 0x02#8 => .instr (.add (fieldA w) (fieldB w) (fieldC legacy w))
  | 0x03#8 => .instr (.sub (fieldA w) (fieldB w) (fieldC legacy w))
  | 0x04#8 => .instr (.mul (fieldA w) (fieldB w) (fieldC legacy w))
  | 0x05#8 => .instr (.div (fieldA w) (fieldB w) (fieldC legacy w))
  | 0x06#8 => .instr (.and (fieldA w) (fieldB w) (fieldC legacy w))
  | 0x07#8 => .instr (.or (fieldA w) (fieldB w) (fieldC legacy w))
  | 0x08#8 => .instr (.str (fieldA w) (imm16Field w))
  | 0x09#8 => .instr (.ld (fieldA w) (imm16Field w))
  | 0x0A#8 => .instr (.jmp (imm16Field w))
  | 0x0B#8 => .instr (.jmpe (fieldA w) (fieldB w) (fieldC legacy w))
  | 0x0C#8 => .instr (.jmpn (fieldA w) (fieldB w) (fieldC legacy w))
  | 0x0D#8 => .instr (.jmpg (fieldA w) (fieldB w) (fieldC legacy w))
  | 0x0E#8 => .instr (.jmpl (fieldA w) (fieldB w) (fieldC legacy w))
  | 0x0F#8 => .instr (.jmpr (fieldA w))
  | 0xFF#8 => .instr .nop
  | op => .undefined op

/-- The opcode byte of each instruction: the catalog of R62. -/
def Instr.opcode : Instr → BitVec 8
  | .mov _ _ => 0x01#8
  | .add _ _ _ => 0x02#8
  | .sub _ _ _ => 0x03#8
  | .mul _ _ _ => 0x04#8
  | .div _ _ _ => 0x05#8
  | .and _ _ _ => 0x06#8
  | .or _ _ _ => 0x07#8
  | .str _ _ => 0x08#8
  | .ld _ _ => 0x09#8
  | .jmp _ => 0x0A#8
  | .jmpe _ _ _ => 0x0B#8
  | .jmpn _ _ _ => 0x0C#8
  | .jmpg _ _ _ => 0x0D#8
  | .jmpl _ _ _ => 0x0E#8
  | .jmpr _ => 0x0F#8
  | .nop => 0xFF#8

/-- `R3(op, A, B, C) = op<<24 | A<<16 | B<<8 | C` (R69). With a C wider than 8 bits the or runs into B, which is the
legacy packing of R82. -/
def encodeR3 (op a b : BitVec 8) (c : BitVec 16) : Word :=
  op.setWidth 32 <<< 24 ||| a.setWidth 32 <<< 16 ||| b.setWidth 32 <<< 8 ||| c.setWidth 32

/-- `RI(op, A, i) = op<<24 | A<<16 | i` (R69). -/
def encodeRI (op a : BitVec 8) (imm16 : BitVec 16) : Word :=
  op.setWidth 32 <<< 24 ||| a.setWidth 32 <<< 16 ||| imm16.setWidth 32

/-- `J(op, i) = op<<24 | i` (R69). -/
def encodeJ (op : BitVec 8) (imm16 : BitVec 16) : Word :=
  op.setWidth 32 <<< 24 ||| imm16.setWidth 32

/-- `R1(op, A) = op<<24 | A<<16` (R69). -/
def encodeR1 (op a : BitVec 8) : Word :=
  op.setWidth 32 <<< 24 ||| a.setWidth 32 <<< 16

/-- `N = 0xFF000000` (R69), as the opcode byte over zeros. -/
def encodeN (op : BitVec 8) : Word := op.setWidth 32 <<< 24

/-- The word of an instruction, every unused field 0 (R69, R81). -/
def encode (i : Instr) : Word :=
  match i with
  | .mov a imm16 => encodeRI i.opcode a imm16
  | .add a b c => encodeR3 i.opcode a b c
  | .sub a b c => encodeR3 i.opcode a b c
  | .mul a b c => encodeR3 i.opcode a b c
  | .div a b c => encodeR3 i.opcode a b c
  | .and a b c => encodeR3 i.opcode a b c
  | .or a b c => encodeR3 i.opcode a b c
  | .str a imm16 => encodeRI i.opcode a imm16
  | .ld a imm16 => encodeRI i.opcode a imm16
  | .jmp imm16 => encodeJ i.opcode imm16
  | .jmpe a b c => encodeR3 i.opcode a b c
  | .jmpn a b c => encodeR3 i.opcode a b c
  | .jmpg a b c => encodeR3 i.opcode a b c
  | .jmpl a b c => encodeR3 i.opcode a b c
  | .jmpr a => encodeR1 i.opcode a
  | .nop => encodeN i.opcode

/-- The bits of a word that the instruction's format uses (R57): unused ones are ignored by the decoder (R64). -/
def Instr.usedBits : Instr → Word
  | .jmp _ => 0xFF00FFFF#32
  | .jmpr _ => 0xFFFF0000#32
  | .nop => 0xFF000000#32
  | _ => 0xFFFFFFFF#32

/-- The word whose `nbits` low bits are `w`, every bit above them 0. -/
def wordOfBits (nbits w : Nat) : Word := BitVec.ofNat 32 (w % 2 ^ nbits)

/-- The instruction the decoder reads from the instruction word whose bits are `w`, in the default layout
(00_scope.md R10). -/
def decodeTableWord (nbits w : Nat) : Option Instr :=
  match decode Params.default.legacyOverlap (wordOfBits nbits w) with
  | .instr i => some i
  | .undefined _ => none

end Sys2Proof
end

