-- ==== Sys2Proof/Machine/State.lean ====
section
/-! DEFINITION. The state of the core (10_state.md), the reasons a step of the model can stop, the outputs of a step
(40_sequencer.md R91, R104) and the state after reset (10_state.md R39). -/

namespace Sys2Proof.Machine

/-- The four flags `F.Z`, `F.N`, `F.C`, `F.V` (10_state.md R24). -/
structure Flags where
  z : Bool
  n : Bool
  c : Bool
  v : Bool
deriving DecidableEq, Repr

/-- Data memory as (address, word) pairs in the one canonical form of `Memory.wf` (Ops.lean): the spec's smallest
addressable unit is the 32-bit word, and it forbids a byte layout (20_memory.md R40, R41; log 1). -/
abbrev Memory := List (Nat × Word)

/-- Which index was out of range (10_state.md R34). -/
inductive IndexKind where
  | register
  | memory
deriving DecidableEq, Repr

/-- The record of an `IndexFault`: its kind and the offending field value (10_state.md R34). -/
structure IndexFault where
  kind : IndexKind
  index : Nat
deriving DecidableEq, Repr

/-- Everything the spec gives the machine: the tuple `(X, F, pc, M, stepCount, fault)` of 10_state.md, with the program
store and the parameters, which no step writes (R32, R36; log 2). -/
structure State where
  /-- `x[0]` to `x[7]` (R20). -/
  regs : Vector Word 8
  /-- The flags (R24). -/
  flags : Flags
  /-- The program counter, an index in `prog` (R27). -/
  pc : Word
  /-- Data memory `M` (R30). -/
  mem : Memory
  /-- How many instructions have executed since construction or `reset()` (R33). -/
  stepCount : Nat
  /-- The sticky record of an index fault (R34). -/
  fault : Option IndexFault
  /-- The program store `Prog`; its length is `L` (R32). -/
  prog : List Word
  /-- STEP_BUDGET, PROG_CAPACITY and ENC_LEGACY_OVERLAP (00_scope.md R8 to R10). -/
  params : Params
deriving DecidableEq, Repr

/-- Why the model's machine could stop with a fault: for no reason. The spec gives every step of every state an effect;
its own `IndexFault` is a next state with `State.fault` recorded (60_exceptions.md R170), so nothing raises a fault of
the model, and no constructor is here (log 7). -/
inductive Fault where
deriving DecidableEq, Repr

/-- Why the model could have no meaning for an instruction. -/
inductive Refusal where
  /-- Raised by an arm of `exec` for an instruction that has no meaning yet; no arm raises it now. Safe: the model
  would stop where the core goes on. -/
  | notModelled (mnemonic : String)
deriving DecidableEq, Repr

/-- Why the core is halted (40_sequencer.md R91). -/
inductive HaltCause where
  | fault (f : IndexFault)
  | programEnd
  | stepBudgetExceeded
deriving DecidableEq, Repr

/-- The engine state, computed and not stored (40_sequencer.md R91, 10_state.md R35). -/
inductive Status where
  | ready
  | halted (cause : HaltCause)
deriving DecidableEq, Repr

/-- The condition a step reports: an output of the step, not stored state (40_sequencer.md R104). -/
inductive Condition where
  /-- An executed catalog instruction. -/
  | none
  /-- An executed undefined opcode, with its byte (60_exceptions.md R168). -/
  | invalidOpcode (op : BitVec 8)
  /-- A step that raised an index fault (60_exceptions.md R170). -/
  | indexFault (f : IndexFault)
  /-- A step while Halted, with the cause. -/
  | halted (cause : HaltCause)
deriving DecidableEq, Repr

/-- What `step()` gives back to the host (40_sequencer.md R104). -/
structure StepReport where
  regs : Vector Word 8
  mem : Memory
  flags : Flags
  status : Status
  cond : Condition
deriving DecidableEq, Repr

/-- All four flags false: their reset value (10_state.md R39), and what AND, OR, STR and a halted step write. -/
def Flags.allFalse : Flags := ⟨false, false, false, false⟩

/-- The machine right after reset (10_state.md R39), with the default parameters and the program of an engine
constructed with no source lines (70_reset_and_hazards.md R192; log 4). -/
def State.reset : State where
  regs := Vector.replicate 8 0#32
  flags := Flags.allFalse
  pc := 0#32
  mem := []
  stepCount := 0
  fault := none
  prog := []
  params := Params.default

end Sys2Proof.Machine
end

