-- ==== Sys2Proof/Machine/Flags.lean ====
section
/-! DEFINITION. The result and the flags of each arithmetic operation, from the exact integer result (41_alu.md R110 to
R115). AND, OR and STR write `Flags.allFalse` (R116, R117, 42_load_store.md R130). -/

namespace Sys2Proof.Machine

/-- `setZN(r)` with the operation's own carry and overflow (41_alu.md R110). -/
def Flags.ofResult (r : Word) (c v : Bool) : Flags :=
  ⟨decide (r.toNat = 0), decide (s32 r < 0), c, v⟩

/-- ADD's result (R112). -/
def addResult (a b : Word) : Word := trunc32 (s32 a + s32 b)

/-- ADD's flags (R112): C is the exact sum above `INT_MAX`; V is equal operand signs and another result sign. -/
def addFlags (a b : Word) : Flags :=
  Flags.ofResult (addResult a b)
    (decide (s32 a + s32 b > intMax))
    (sign a == sign b && sign (addResult a b) != sign a)

/-- SUB's result (R113). -/
def subResult (a b : Word) : Word := trunc32 (s32 a - s32 b)

/-- SUB's flags (R113): C is the signed borrow (log 10); V is unequal operand signs and a result sign other than the
minuend's. -/
def subFlags (a b : Word) : Flags :=
  Flags.ofResult (subResult a b)
    (decide (s32 a < s32 b))
    (sign a != sign b && sign (subResult a b) != sign a)

/-- MUL's result (R114). -/
def mulResult (a b : Word) : Word := trunc32 (s32 a * s32 b)

/-- MUL's flags (R114): C is the exact product outside the signed range; V is the 32-bit divide-back check (log 12). -/
def mulFlags (a b : Word) : Flags :=
  Flags.ofResult (mulResult a b)
    (decide (s32 a * s32 b < intMin ∨ s32 a * s32 b > intMax))
    (decide (s32 a ≠ 0 ∧ s32 (div32 (mulResult a b) a) ≠ s32 b))

/-- DIV's flags for a non-zero divisor (R115): C false; V is `INT_MIN / -1`. -/
def divFlags (a b : Word) : Flags :=
  Flags.ofResult (div32 a b) false (decide (s32 a = intMin ∧ s32 b = -1))

end Sys2Proof.Machine
end

