-- ==== Sys2Proof/Machine/Ops.lean ====
section
/-! DEFINITION. The named operations over registers, flags and memory, retiring an instruction, and raising an index
fault (the core's only stopping condition). -/

namespace Sys2Proof.Machine

/-! ## Data memory (10_state.md R30, 20_memory.md) -/

/-- What a cell that no STR has written reads as (10_state.md R39). -/
def Memory.unlisted : Word := 0#32

/-- `MemRead(a, 1)`: the word of cell `a` (00_scope.md R16). -/
def Memory.read : Memory → Nat → Word
  | [], _ => Memory.unlisted
  | (k, v) :: m, a => if k = a then v else Memory.read m a

/-- `MemWrite(a, 1, v)` (00_scope.md R16), keeping the canonical form: the entry is placed in address order, and
writing what an unlisted cell reads as removes it. -/
def Memory.write : Memory → Nat → Word → Memory
  | [], a, v => if v = Memory.unlisted then [] else [(a, v)]
  | (k, u) :: m, a, v =>
    if a < k then (if v = Memory.unlisted then (k, u) :: m else (a, v) :: (k, u) :: m)
    else if a = k then (if v = Memory.unlisted then m else (a, v) :: m)
    else (k, u) :: Memory.write m a v

/-- Every entry from address `lo` on is in rising order, inside the 256 cells, and not what an unlisted cell reads as. -/
def Memory.wfFrom : Nat → Memory → Bool
  | _, [] => true
  | lo, (k, v) :: m => decide (lo ≤ k) && decide (k < 256) && decide (v ≠ Memory.unlisted) && Memory.wfFrom (k + 1) m

/-- The canonical form: addresses strictly rising in `[0, 255]`, no entry equal to the unlisted word. -/
def Memory.wf (m : Memory) : Bool := Memory.wfFrom 0 m

/-! ## Registers and flags (10_state.md R20, R24) -/

/-- `x[r]` (00_scope.md R16). No register is hard-wired (10_state.md R20). -/
def State.readReg (s : State) (r : Fin 8) : Word := s.regs[r]

/-- `x[r] <- v` (00_scope.md R16). -/
def State.writeReg (s : State) (r : Fin 8) (v : Word) : State := { s with regs := s.regs.set r v }

/-- `F <- f` (00_scope.md R16). -/
def State.setFlags (s : State) (f : Flags) : State := { s with flags := f }

/-! ## The load/store arbiter (20_memory.md R49): one request of the current step, its address already checked -/

/-- The word at data address `a`. -/
def State.loadWord (s : State) (a : Fin 256) : Word := Memory.read s.mem a

/-- Data address `a` takes the word `v`. -/
def State.storeWord (s : State) (a : Fin 256) (v : Word) : State := { s with mem := Memory.write s.mem a v }

/-! ## The end of a step (40_sequencer.md R93) -/

/-- The sequential next pc (10_state.md R27). -/
def State.nextPc (s : State) : Word := s.pc + 1#32

/-- An executed instruction leaves `pc` at its next-pc value and counts one step (40_sequencer.md R97, R99). -/
def State.retire (s : State) (npc : Word) : State := { s with pc := npc, stepCount := s.stepCount + 1 }

/-- TAKING THE CORE'S ONE EXCEPTION, `raise IndexFault(kind, index)`: the fault is recorded and nothing else changes; the
core is Halted from then on (60_exceptions.md R170, R173; 40_sequencer.md R93). There is no handler, saved pc or mode
(R177), and no return but `reset()` (R179; `State.hostReset`). -/
def State.raiseIndexFault (s : State) (kind : IndexKind) (index : Nat) : State :=
  { s with fault := some ⟨kind, index⟩ }

/-- RETURNING FROM IT: `reset()` (70_reset_and_hazards.md R188) is the only operation that clears a fault. Registers,
memory, pc, flags, step count and fault take their construction values; program and parameters stay. -/
def State.hostReset (s : State) : State :=
  { State.reset with prog := s.prog, params := s.params }

end Sys2Proof.Machine
end

