-- ==== Sys2Proof/Machine/Operands.lean ====
section
/-! DEFINITION. Operand forms: a checked register field, a checked data address, the register-or-immediate third
operand, the immediates and jump targets (30_encoding.md R59, R60, R66; 40_sequencer.md R96). -/

namespace Sys2Proof.Machine

/-- Use field `f` as a register: go on with the register it names, or raise `IndexFault(Register, f)` when it is above 7
(40_sequencer.md R96). Nested uses check in the order they are written, before any write. -/
def withRegister (f : BitVec 8) (s : State) (body : Fin 8 → State) : State :=
  if h : f.toNat < 8 then body ⟨f.toNat, h⟩ else s.raiseIndexFault .register f.toNat

/-- Use an address field as a data address: the effective address is the field itself, zero-extended
(42_load_store.md R132); above 255 it raises `IndexFault(Memory, f)` (40_sequencer.md R96). -/
def withAddress (f : BitVec 16) (s : State) (body : Fin 256 → State) : State :=
  if h : f.toNat < 256 then body ⟨f.toNat, h⟩ else s.raiseIndexFault .memory f.toNat

/-- `resolve(C)`: register C for `C < 8`, else the literal C, zero-extended (30_encoding.md R60). It never faults. -/
def State.resolve (s : State) (c : BitVec 16) : Word :=
  if h : c.toNat < 8 then s.readReg ⟨c.toNat, h⟩ else c.setWidth 32

/-- `zext_32(imm16)`, MOV's value (30_encoding.md R59). -/
def immediate (imm16 : BitVec 16) : Word := imm16.setWidth 32

/-- A jump's absolute target: the raw field, zero-extended, never resolved through a register (30_encoding.md R59;
log 20). -/
def jumpTarget (f : BitVec 16) : Word := f.setWidth 32

/-- The check of a register field alone (40_sequencer.md R96, items 1 and 2). -/
def registerCheck (f : BitVec 8) : Option IndexFault :=
  if 7 < f.toNat then some ⟨.register, f.toNat⟩ else none

/-- The check of a data address field alone (40_sequencer.md R96, item 3). -/
def addressCheck (f : BitVec 16) : Option IndexFault :=
  if 255 < f.toNat then some ⟨.memory, f.toNat⟩ else none

/-- `index_check(t, S)` of 40_sequencer.md R96: the first failing check, in the order A, B, memory. -/
def indexCheck : Instr → Option IndexFault
  | .mov a _ => registerCheck a
  | .add a b _ => (registerCheck a).or (registerCheck b)
  | .sub a b _ => (registerCheck a).or (registerCheck b)
  | .mul a b _ => (registerCheck a).or (registerCheck b)
  | .div a b _ => (registerCheck a).or (registerCheck b)
  | .and a b _ => (registerCheck a).or (registerCheck b)
  | .or a b _ => (registerCheck a).or (registerCheck b)
  | .str a imm16 => (registerCheck a).or (addressCheck imm16)
  | .ld a imm16 => (registerCheck a).or (addressCheck imm16)
  | .jmp _ => none
  | .jmpe a b _ => (registerCheck a).or (registerCheck b)
  | .jmpn a b _ => (registerCheck a).or (registerCheck b)
  | .jmpg a b _ => (registerCheck a).or (registerCheck b)
  | .jmpl a b _ => (registerCheck a).or (registerCheck b)
  | .jmpr a => registerCheck a
  | .nop => none

end Sys2Proof.Machine
end

