-- ==== Sys2Proof/Machine/Alu.lean ====
section
/-! DEFINITION. The register-file ALU: MOV, ADD, SUB, MUL, DIV, AND, OR (41_alu.md). -/

namespace Sys2Proof.Machine

/-- Write register `rd` and the flags, and go on at `pc + 1` (40_sequencer.md R97, R98). -/
def State.writeResult (s : State) (rd : Fin 8) (r : Word) (f : Flags) : State :=
  ((s.writeReg rd r).setFlags f).retire s.nextPc

/-- The shape of the six three-operand ALU instructions (41_alu.md R110): check A and B, read `x[B]` and `resolve(C)`
from the state before the step, hand destination and operands on. -/
def withAluOperands (a b : BitVec 8) (c : BitVec 16) (s : State) (body : Fin 8 → Word → Word → State) : State :=
  withRegister a s fun rd => withRegister b s fun rs => body rd (s.readReg rs) (s.resolve c)

/-- MOV (41_alu.md R111): `x[A] <- zext_32(imm16)`, flags unchanged. -/
def execMov (a : BitVec 8) (imm16 : BitVec 16) (s : State) : Host.Outcome State Fault Refusal :=
  .next (withRegister a s fun rd => (s.writeReg rd (immediate imm16)).retire s.nextPc)

/-- ADD (41_alu.md R112). -/
def execAdd (a b : BitVec 8) (c : BitVec 16) (s : State) : Host.Outcome State Fault Refusal :=
  .next (withAluOperands a b c s fun rd x y => s.writeResult rd (addResult x y) (addFlags x y))

/-- SUB (41_alu.md R113). -/
def execSub (a b : BitVec 8) (c : BitVec 16) (s : State) : Host.Outcome State Fault Refusal :=
  .next (withAluOperands a b c s fun rd x y => s.writeResult rd (subResult x y) (subFlags x y))

/-- MUL (41_alu.md R114). -/
def execMul (a b : BitVec 8) (c : BitVec 16) (s : State) : Host.Outcome State Fault Refusal :=
  .next (withAluOperands a b c s fun rd x y => s.writeResult rd (mulResult x y) (mulFlags x y))

/-- DIV (41_alu.md R115): a zero divisor writes no register and no flag; the index checks come first all the same. -/
def execDiv (a b : BitVec 8) (c : BitVec 16) (s : State) : Host.Outcome State Fault Refusal :=
  .next (withAluOperands a b c s fun rd x y =>
    if s32 y = 0 then s.retire s.nextPc else s.writeResult rd (div32 x y) (divFlags x y))

/-- AND (41_alu.md R116): every flag false, whatever the result. -/
def execAnd (a b : BitVec 8) (c : BitVec 16) (s : State) : Host.Outcome State Fault Refusal :=
  .next (withAluOperands a b c s fun rd x y => s.writeResult rd (x &&& y) Flags.allFalse)

/-- OR (41_alu.md R117): every flag false, whatever the result. -/
def execOr (a b : BitVec 8) (c : BitVec 16) (s : State) : Host.Outcome State Fault Refusal :=
  .next (withAluOperands a b c s fun rd x y => s.writeResult rd (x ||| y) Flags.allFalse)

end Sys2Proof.Machine
end

