-- ==== Sys2Proof/Machine/Branch.lean ====
section
/-! DEFINITION. Control transfer and NOP (43_branch.md, 44_nop_invalid.md R155): each writes `pc` and the step count
alone. -/

namespace Sys2Proof.Machine

/-- The shape of the four conditional jumps (43_branch.md R141 to R144): compare `x[A]` with `x[B]`; taken, go to the raw
third field; not taken, go on at `pc + 1`. -/
def conditionalJump (taken : Word → Word → Bool) (a b : BitVec 8) (c : BitVec 16) (s : State) : State :=
  withRegister a s fun ra => withRegister b s fun rb =>
    s.retire (if taken (s.readReg ra) (s.readReg rb) then jumpTarget c else s.nextPc)

/-- `t` of JMPR (43_branch.md R145): `pc + offset` as an exact integer, or `L` when that lies outside `[0, L)`. -/
def clampedIndex (pc : Word) (offset : Int) (len : Nat) : Int :=
  let t := (pc.toNat : Int) + offset
  if t < 0 ∨ t ≥ len then len else t

/-- JMPR's next pc: the generic increment after the clamp (40_sequencer.md R97; log 13). -/
def relativeTarget (pc : Word) (offset : Int) (len : Nat) : Word :=
  trunc32 (clampedIndex pc offset len + 1)

/-- JMP (R140). -/
def execJmp (imm16 : BitVec 16) (s : State) : Host.Outcome State Fault Refusal :=
  .next (s.retire (jumpTarget imm16))

/-- JMPE (R141): taken when the patterns are equal. -/
def execJmpe (a b : BitVec 8) (c : BitVec 16) (s : State) : Host.Outcome State Fault Refusal :=
  .next (conditionalJump (fun x y => decide (x = y)) a b c s)

/-- JMPN (R142): taken when they differ. -/
def execJmpn (a b : BitVec 8) (c : BitVec 16) (s : State) : Host.Outcome State Fault Refusal :=
  .next (conditionalJump (fun x y => decide (x ≠ y)) a b c s)

/-- JMPG (R143): taken when `x[A]` is greater, signed. -/
def execJmpg (a b : BitVec 8) (c : BitVec 16) (s : State) : Host.Outcome State Fault Refusal :=
  .next (conditionalJump (fun x y => decide (s32 x > s32 y)) a b c s)

/-- JMPL (R144): taken when `x[A]` is less, signed. -/
def execJmpl (a b : BitVec 8) (c : BitVec 16) (s : State) : Host.Outcome State Fault Refusal :=
  .next (conditionalJump (fun x y => decide (s32 x < s32 y)) a b c s)

/-- JMPR (R145). -/
def execJmpr (a : BitVec 8) (s : State) : Host.Outcome State Fault Refusal :=
  .next (withRegister a s fun ra => s.retire (relativeTarget s.pc (s32 (s.readReg ra)) s.prog.length))

/-- NOP (44_nop_invalid.md R155). -/
def execNop (s : State) : Host.Outcome State Fault Refusal :=
  .next (s.retire s.nextPc)

end Sys2Proof.Machine
end

