-- ==== Sys2Proof/Machine/LoadStore.lean ====
section
/-! DEFINITION. Load and store (42_load_store.md): the register field is checked before the address (R130, R131). -/

namespace Sys2Proof.Machine

/-- STR (R130): `M[imm16] <- x[A]`, every flag false. -/
def execStr (a : BitVec 8) (imm16 : BitVec 16) (s : State) : Host.Outcome State Fault Refusal :=
  .next (withRegister a s fun rs => withAddress imm16 s fun addr =>
    ((s.storeWord addr (s.readReg rs)).setFlags Flags.allFalse).retire s.nextPc)

/-- LD (R131): `x[A] <- M[imm16]`, flags unchanged. -/
def execLd (a : BitVec 8) (imm16 : BitVec 16) (s : State) : Host.Outcome State Fault Refusal :=
  .next (withRegister a s fun rd => withAddress imm16 s fun addr =>
    (s.writeReg rd (s.loadWord addr)).retire s.nextPc)

end Sys2Proof.Machine
end

