-- ==== Sys2Proof/Machine/Dispatch.lean ====
section
/-! DEFINITION. The dispatch of 40_sequencer.md R95: one arm per instruction, one direct call of its meaning. A meaning
makes the index checks, the writes, the next pc and the step count of R93; whether the core is Ready is `step`'s
question (log 22). -/

namespace Sys2Proof.Machine
open Sys2Proof

def exec (i : Instr) (s : State) : Host.Outcome State Fault Refusal :=
  match i with
  | .mov a imm16 => Sys2Proof.Machine.execMov a imm16 s
  | .add a b c => Sys2Proof.Machine.execAdd a b c s
  | .sub a b c => Sys2Proof.Machine.execSub a b c s
  | .mul a b c => Sys2Proof.Machine.execMul a b c s
  | .div a b c => Sys2Proof.Machine.execDiv a b c s
  | .and a b c => Sys2Proof.Machine.execAnd a b c s
  | .or a b c => Sys2Proof.Machine.execOr a b c s
  | .str a imm16 => Sys2Proof.Machine.execStr a imm16 s
  | .ld a imm16 => Sys2Proof.Machine.execLd a imm16 s
  | .jmp imm16 => Sys2Proof.Machine.execJmp imm16 s
  | .jmpe a b c => Sys2Proof.Machine.execJmpe a b c s
  | .jmpn a b c => Sys2Proof.Machine.execJmpn a b c s
  | .jmpg a b c => Sys2Proof.Machine.execJmpg a b c s
  | .jmpl a b c => Sys2Proof.Machine.execJmpl a b c s
  | .jmpr a => Sys2Proof.Machine.execJmpr a s
  | .nop => Sys2Proof.Machine.execNop s

end Sys2Proof.Machine
end

