-- ==== Sys2Proof/Machine/Sequencer.lean ====
section
/-! DEFINITION. The program-counter sequencer (40_sequencer.md): engine status, fetch, the three ways a step goes, and
the condition it reports. -/

namespace Sys2Proof.Machine

/-- `status(S)` of 40_sequencer.md R91: a recorded fault first, then program end, then the budget (R101). -/
def status (s : State) : Status :=
  match s.fault with
  | some f => .halted (.fault f)
  | none =>
    if s.pc.toNat ≥ s.prog.length then .halted .programEnd
    else if s.stepCount ≥ s.params.stepBudget then .halted .stepBudgetExceeded
    else .ready

/-- `step()` while Halted: the flags are cleared and nothing else changes (R92). -/
def haltedStep (s : State) : State := s.setFlags Flags.allFalse

/-- Fetch (R94): the word `Prog[pc]`, which is there whenever `pc < L`. -/
def fetch (s : State) : Option Word := s.prog[s.pc.toNat]?

/-- An undefined opcode (44_nop_invalid.md R156): `pc + 1`, one step counted, nothing else. Its byte goes into the step's
condition alone (60_exceptions.md R168). -/
def undefinedOpcode (s : State) : State := s.retire s.nextPc

/-- What a decoded word does (R95). -/
def execDecoded (d : Decoded) (s : State) : Host.Outcome State Fault Refusal :=
  match d with
  | .instr i => exec i s
  | .undefined _ => .next (undefinedOpcode s)

/-- `step_ready(S)` of R93: fetch, decode, execute. Ready means `pc < L`, so the fetch is in range (R94); past the end
the program has ended and the step is a halted one. -/
def readyStep (s : State) : Host.Outcome State Fault Refusal :=
  match fetch s with
  | some w => execDecoded (decode s.params.legacyOverlap w) s
  | none => .next (haltedStep s)

/-- The condition of executing a decoded word (R104): an undefined opcode is reported and never index-checked
(60_exceptions.md R171). -/
def decodedCondition : Decoded → Condition
  | .undefined op => .invalidOpcode op
  | .instr i =>
    match indexCheck i with
    | some f => .indexFault f
    | none => .none

/-- The condition `step()` reports from this state (R104). -/
def stepCondition (s : State) : Condition :=
  match status s with
  | .halted c => .halted c
  | .ready =>
    match fetch s with
    | some w => decodedCondition (decode s.params.legacyOverlap w)
    | none => .halted .programEnd

/-- The numeric code of a halt cause (60_exceptions.md R165). -/
def HaltCause.code : HaltCause → Nat
  | .programEnd => 1
  | .stepBudgetExceeded => 2
  | .fault ⟨.register, _⟩ => 4
  | .fault ⟨.memory, _⟩ => 5

/-- The numeric code of a condition (60_exceptions.md R165); a step while Halted reports its cause again. -/
def Condition.code : Condition → Nat
  | .none => 0
  | .invalidOpcode _ => 3
  | .indexFault f => HaltCause.code (.fault f)
  | .halted c => HaltCause.code c

/-- `prog` with `w` at index `n`; a store too short is first filled up with zero words. -/
def placeWord : List Word → Nat → Word → List Word
  | [], 0, w => [w]
  | [], n + 1, w => 0#32 :: placeWord [] n w
  | _ :: p, 0, w => w :: p
  | v :: p, n + 1, w => v :: placeWord p n w

end Sys2Proof.Machine
end

