-- ==== Sys2Proof/Machine/Step.lean ====
section
/-! DEFINITION. The one transition of the core, `step()` (40_sequencer.md R90). -/

namespace Sys2Proof.Machine

/-- `step()` (R90): one instruction while Ready (R93), the flags cleared while Halted (R92). -/
def step (s : State) : Host.Outcome State Fault Refusal :=
  match status s with
  | .halted _ => .next (haltedStep s)
  | .ready => readyStep s

/-- The state with the word of bits `w` in the program store where the next step fetches, and Ready to fetch it: no
fault recorded and a budget that the step count has not reached (log 4). -/
def State.withFetchWord (s : State) (nbits w : Nat) : State :=
  { s with
    prog := placeWord s.prog s.pc.toNat (wordOfBits nbits w)
    fault := none
    params := { s.params with stepBudget := max s.params.stepBudget (s.stepCount + 1) } }

end Sys2Proof.Machine
end

