-- ==== Sys2Proof/Machine/Assembler.lean ====
section
/-! DEFINITION. The assembler (30_encoding.md R70 to R89): the toolchain that makes program words of source lines. It is
not part of the hardware (00_scope.md R4) and no step calls it. A line is a list of characters. -/

namespace Sys2Proof.Machine

/-- The four ways a line fails (R70). -/
inductive AsmError where
  | unknownMnemonic
  | malformedInstruction
  | invalidRegister
  | invalidImmediate
deriving DecidableEq, Repr

/-- The operand formats of R57. -/
inductive Format where
  | r3
  | ri
  | j
  | r1
  | n
deriving DecidableEq, Repr

/-- The catalog of R62: mnemonic (lower-case, R72), opcode byte, format. -/
def catalog : List (List Char × BitVec 8 × Format) :=
  [("mov".toList, 0x01#8, .ri), ("add".toList, 0x02#8, .r3), ("sub".toList, 0x03#8, .r3), ("mul".toList, 0x04#8, .r3),
   ("div".toList, 0x05#8, .r3), ("and".toList, 0x06#8, .r3), ("or".toList, 0x07#8, .r3), ("str".toList, 0x08#8, .ri),
   ("ld".toList, 0x09#8, .ri), ("jmp".toList, 0x0A#8, .j), ("jmpe".toList, 0x0B#8, .r3), ("jmpn".toList, 0x0C#8, .r3),
   ("jmpg".toList, 0x0D#8, .r3), ("jmpl".toList, 0x0E#8, .r3), ("jmpr".toList, 0x0F#8, .r1), ("nop".toList, 0xFF#8, .n)]

/-- R72: the catalog row of a mnemonic. -/
def catalogLookup (mnemonic : List Char) : Option (BitVec 8 × Format) := catalog.lookup mnemonic

/-- White space is the space and the tab (R71). -/
def isBlank (ch : Char) : Bool := ch == ' ' || ch == '\t'

/-- Cut at runs of white space; `cur` holds the token being read, last character first. -/
def splitTokens : List Char → List Char → List (List Char)
  | [], cur => if cur.isEmpty then [] else [cur.reverse]
  | ch :: rest, cur =>
    if isBlank ch then (if cur.isEmpty then splitTokens rest [] else cur.reverse :: splitTokens rest [])
    else splitTokens rest (ch :: cur)

/-- R71: lower-case (the letters A to Z, log 23), then split into tokens. -/
def normalise (line : List Char) : List (List Char) := splitTokens (line.map Char.toLower) []

/-- R74: exactly `r0` to `r7`. -/
def parseRegister : List Char → Option (BitVec 8)
  | ['r', d] => if '0' ≤ d ∧ d ≤ '7' then some (BitVec.ofNat 8 (d.toNat - '0'.toNat)) else none
  | _ => none

/-- The name of register `r` as a token: `r0` to `r7` (R74). -/
def registerToken (r : Fin 8) : List Char := ['r', Char.ofNat (48 + r)]

/-- The value of a digit in a base of at most 16, after lower-casing. -/
def digitValue (base : Nat) (ch : Char) : Option Nat :=
  if '0' ≤ ch ∧ ch ≤ '9' then some (ch.toNat - '0'.toNat)
  else if base = 16 ∧ 'a' ≤ ch ∧ ch ≤ 'f' then some (ch.toNat - 'a'.toNat + 10)
  else none

/-- The number the digits write after those that made `acc`. -/
def parseDigits (base : Nat) : Nat → List Char → Option Nat
  | acc, [] => some acc
  | acc, ch :: rest =>
    match digitValue base ch with
    | some d => parseDigits base (acc * base + d) rest
    | none => none

/-- One or more digits (R75). -/
def parseNumber (base : Nat) (digits : List Char) : Option Nat :=
  if digits.isEmpty then none else parseDigits base 0 digits

/-- R75: `0x` and hexadecimal digits, `#` and decimal digits, or decimal digits; no sign. -/
def parseLiteral : List Char → Option Nat
  | '0' :: 'x' :: digits => parseNumber 16 digits
  | '#' :: digits => parseNumber 10 digits
  | digits => parseNumber 10 digits

/-- A register operand (R74). -/
def registerOperand (token : List Char) : Except AsmError (BitVec 8) :=
  match parseRegister token with
  | some r => .ok r
  | none => .error .invalidRegister

/-- A literal that fits its field (R76). -/
def literalOperand (largest : Nat) (token : List Char) : Except AsmError (BitVec 16) :=
  match parseLiteral token with
  | some n => if n ≤ largest then .ok (BitVec.ofNat 16 n) else .error .invalidImmediate
  | none => .error .invalidImmediate

/-- The third operand of format R3 (R76, R77): a register name gives its code, anything else is a literal. -/
def thirdOperand (legacy : Bool) (token : List Char) : Except AsmError (BitVec 16) :=
  match parseRegister token with
  | some r => .ok (r.setWidth 16)
  | none => literalOperand (if legacy then 65535 else 255) token

/-- Check the operand count, then the operands from left to right, and pack them (R73, R77 to R83). -/
def packOperands (legacy : Bool) (op : BitVec 8) : Format → List (List Char) → Except AsmError Word
  | .r3, [x, y, z] => do
    let a ← registerOperand x
    let b ← registerOperand y
    let c ← thirdOperand legacy z
    return encodeR3 op a b c
  | .ri, [x, y] => do
    let a ← registerOperand x
    let imm16 ← literalOperand 65535 y
    return encodeRI op a imm16
  | .j, [x] => do
    let imm16 ← literalOperand 65535 x
    return encodeJ op imm16
  | .r1, [x] => do
    let a ← registerOperand x
    return encodeR1 op a
  | .n, [] => .ok (encodeN op)
  | _, _ => .error .malformedInstruction

/-- The mnemonic is looked up before the operands are counted (R72, R83); no token at all is malformed (R71). -/
def assembleTokens (legacy : Bool) : List (List Char) → Except AsmError Word
  | [] => .error .malformedInstruction
  | mnemonic :: operands =>
    match catalogLookup mnemonic with
    | none => .error .unknownMnemonic
    | some (op, format) => packOperands legacy op format operands

/-- `encode(line)` of R70: one word or one error. -/
def assemble (legacy : Bool) (line : List Char) : Except AsmError Word :=
  assembleTokens legacy (normalise line)

/-- R89: every line in order. `none` when a line fails: what the host then does is LOAD_POLICY, which the spec leaves to
the host (70_reset_and_hazards.md R193; log 24). -/
def assembleAll (legacy : Bool) : List (List Char) → Option (List Word)
  | [] => some []
  | line :: rest =>
    match assemble legacy line, assembleAll legacy rest with
    | .ok w, some ws => some (w :: ws)
    | _, _ => none

end Sys2Proof.Machine
end

