-- ==== Sys2Proof/Machine/HostOps.lean ====
section
/-! DEFINITION. What the host may do and what it gets (70_reset_and_hazards.md R187 to R193, R199; 40_sequencer.md
R104). `reset()` is `State.hostReset` (Ops.lean). -/

namespace Sys2Proof.Machine

/-- Construction and load (R187, R192): the reset values, the parameters, and the first `min(PROG_CAPACITY, n)` of the
`n` supplied words. -/
def construct (p : Params) (words : List Word) : State :=
  { State.reset with prog := words.take p.progCapacity, params := p }

/-- Construction from source lines (R192), where every line assembles (R193; log 24). -/
def constructFromSource (p : Params) (lines : List (List Char)) : Option State :=
  (assembleAll p.legacyOverlap lines).map (construct p)

/-- `setProgramCounter(value)` (R189): `pc` and nothing else. -/
def State.setProgramCounter (s : State) (value : Word) : State := { s with pc := value }

/-- `configureStepInterval(value)` (R190): no effect. -/
def State.configureStepInterval (s : State) (_value : Nat) : State := s

/-- The snapshot of a state with a step's condition (40_sequencer.md R104). -/
def snapshot (s : State) (c : Condition) : StepReport :=
  ⟨s.regs, s.mem, s.flags, status s, c⟩

/-- What `step()` from this state returns to the host: the snapshot of the state after it, and its condition
(40_sequencer.md R104). -/
def stepReport (s : State) : Option StepReport :=
  match step s with
  | .next t => some (snapshot t (stepCondition s))
  | .fault _ => none
  | .refused _ => none

/-- The host operations on a constructed engine (R199). -/
inductive HostOp where
  | step
  | reset
  | setProgramCounter (value : Word)
  | configureStepInterval (value : Nat)
deriving DecidableEq, Repr

/-- One host operation (R199). -/
def hostOp (op : HostOp) (s : State) : Host.Outcome State Fault Refusal :=
  match op with
  | .step => step s
  | .reset => .next s.hostReset
  | .setProgramCounter value => .next (s.setProgramCounter value)
  | .configureStepInterval value => .next (s.configureStepInterval value)

/-- Host operations one after another; they never overlap (R191). -/
def hostRun : List HostOp → State → Host.Outcome State Fault Refusal
  | [], s => .next s
  | op :: ops, s =>
    match hostOp op s with
    | .next t => hostRun ops t
    | .fault r => .fault r
    | .refused r => .refused r

end Sys2Proof.Machine
end

