-- ==== Sys2Proof/Safety.lean ====
section
/-! DEFINITION. What counts as a safe state and a safe run, in the terms claims use. -/

namespace Sys2Proof.Machine

/-- The index of a recorded fault is one that names nothing: a register field 8 to 255, or an address field 256 to 65535
(60_exceptions.md R165). -/
def IndexFault.wf (f : IndexFault) : Bool :=
  match f.kind with
  | .register => decide (8 ≤ f.index ∧ f.index ≤ 255)
  | .memory => decide (256 ≤ f.index ∧ f.index ≤ 65535)

/-- What every state of a run satisfies: memory in canonical form, the step count within the budget (40_sequencer.md
R100), the program within its capacity and the capacity within its bound (00_scope.md R9), and a recorded fault that
names a bad index. -/
def State.Inv (s : State) : Prop :=
  Memory.wf s.mem = true ∧ s.stepCount ≤ s.params.stepBudget ∧ s.prog.length ≤ s.params.progCapacity ∧
    s.params.capacityOk = true ∧ ∀ f, s.fault = some f → f.wf = true

/-- The six jumps: the instructions whose next pc is their own (40_sequencer.md R97). -/
def isJump : Instr → Bool
  | .jmp _ => true
  | .jmpe _ _ _ => true
  | .jmpn _ _ _ => true
  | .jmpg _ _ _ => true
  | .jmpl _ _ _ => true
  | .jmpr _ => true
  | _ => false

/-- LD and STR: the instructions that go through the load/store arbiter (20_memory.md R44). -/
def usesDataMemory : Instr → Bool
  | .str _ _ => true
  | .ld _ _ => true
  | _ => false

/-- Field A of the instructions whose result goes to the register it names: MOV and the six ALU instructions
(41_alu.md R111 to R117) and LD (42_load_store.md R131). The others write no register. -/
def destinationField : Instr → Option (BitVec 8)
  | .mov a _ => some a
  | .add a _ _ => some a
  | .sub a _ _ => some a
  | .mul a _ _ => some a
  | .div a _ _ => some a
  | .and a _ _ => some a
  | .or a _ _ => some a
  | .str _ _ => none
  | .ld a _ => some a
  | .jmp _ => none
  | .jmpe _ _ _ => none
  | .jmpn _ _ _ => none
  | .jmpg _ _ _ => none
  | .jmpl _ _ _ => none
  | .jmpr _ => none
  | .nop => none

/-- A signed 32-bit value holds `z` exactly (00_scope.md R14). -/
def inRange32 (z : Int) : Bool := decide (-2147483648 ≤ z ∧ z ≤ 2147483647)

/-- The core is Ready and the word it fetches is `w` (40_sequencer.md R91, R94). -/
def State.ReadyWith (s : State) (w : Word) : Prop :=
  s.fault = none ∧ s.stepCount < s.params.stepBudget ∧ s.prog[s.pc.toNat]? = some w

/-- The core is Halted, for whatever cause (40_sequencer.md R91). -/
def State.Halted (s : State) : Prop := ∃ c, status s = .halted c

/-- `s` with other flags. -/
def State.withFlags (s : State) (f : Flags) : State := { s with flags := f }

/-- Two states that differ in the flags at most (10_state.md R26). -/
def State.SameButFlags (s t : State) : Prop := s.withFlags Flags.allFalse = t.withFlags Flags.allFalse

/-- `k` steps from `s` (the host's run of the core). -/
def run (k : Nat) (s : State) : Host.Outcome State Fault Refusal := Host.Core.run Sys2Proof.core k s

end Sys2Proof.Machine
end

