-- ==== Sys2Proof/Certificates/Slice0/Obligations.lean ====
section
/-! DEFINITION. The statements for the provers, in the order of the spec's files. `log n` is notes/assumptions/n.md;
`Dn` and `In` are rows of 92_eei_decisions.md and 93_implementation_defined.md: where a docstring names one, the clause
rests on that choice and not on a sentence of the source. -/

open Sys2Proof Sys2Proof.Machine

/-! ## Encoding (30_encoding.md) -/

/-- Words written out by hand from R57 and R62, and the examples of R64 (unused bits ignored: D6, log 19), decode to the
instructions they stand for. -/
def Obligations.WordsOfTheSpecDecode : Prop :=
  decode false 0x010303E8#32 = .instr (.mov 3#8 1000#16) ∧
  decode false 0x02010203#32 = .instr (.add 1#8 2#8 3#16) ∧
  decode true 0x02010203#32 = .instr (.add 1#8 2#8 0x0203#16) ∧
  decode false 0x08010010#32 = .instr (.str 1#8 16#16) ∧
  decode false 0x0A123456#32 = .instr (.jmp 0x3456#16) ∧
  decode false 0x0D030108#32 = .instr (.jmpg 3#8 1#8 8#16) ∧
  decode false 0x0F07FFFF#32 = .instr (.jmpr 7#8) ∧
  decode false 0xFFABCDEF#32 = .instr .nop ∧
  decode false 0x00000000#32 = .undefined 0x00#8

/-- Decoding an encoded instruction gives it back, in both layouts, whatever its operands (R69 derives it for the default
layout; for the legacy layout it is this model's reading of R58 and R82, log 9). -/
def Obligations.DecodeOfEncodeIsTheInstruction : Prop :=
  ∀ (legacy : Bool) (i : Instr), i.wellFormed legacy = true → decode legacy (encode i) = .instr i

/-- The other direction: an instruction read from a word is well formed, and its own word is that word with the bits its
format does not use cleared (R57, R64; D6, log 19). -/
def Obligations.DecodedInstructionReencodesToItsUsedBits : Prop :=
  ∀ (legacy : Bool) (w : Word) (i : Instr), decode legacy w = .instr i →
    i.wellFormed legacy = true ∧ encode i = w &&& i.usedBits

/-- R63: the opcode byte alone selects the row; bytes 0x01 to 0x0F and 0xFF are the defined ones. -/
def Obligations.OpcodeByteAloneSelectsTheInstruction : Prop :=
  ∀ (legacy : Bool) (w : Word),
    ((∃ i, decode legacy w = .instr i) ↔
      (1 ≤ (opcodeField w).toNat ∧ (opcodeField w).toNat ≤ 15) ∨ (opcodeField w).toNat = 255) ∧
    (∀ i, decode legacy w = .instr i → i.opcode = opcodeField w) ∧
    (∀ op, decode legacy w = .undefined op → op = opcodeField w)

/-- R58 and R61 (D1, log 17): by default C is the low byte; under the legacy layout it is `B * 256 + w[7:0]`, and so it
names a register only when B is 0. -/
def Obligations.LegacyThirdOperandContainsFieldB : Prop :=
  ∀ w : Word,
    (fieldC false w).toNat = w.toNat % 256 ∧
    (fieldC true w).toNat = (fieldB w).toNat * 256 + w.toNat % 256 ∧
    ((fieldC true w).toNat < 8 → fieldB w = 0#8)

/-- R60: `resolve(C)` is register C below 8, and the zero-extended literal from 8 up. -/
def Obligations.ThirdOperandBelowEightIsARegister : Prop :=
  ∀ (s : State) (c : BitVec 16),
    (∀ r : Fin 8, c.toNat = r → s.resolve c = s.readReg r) ∧
    (8 ≤ c.toNat → (s.resolve c).toNat = c.toNat)

/-! ## The assembler (30_encoding.md section 4) -/

/-- R84 (derived there from R69 and R77): a three-operand line of register names assembles, in either layout, to a word
from which the opcode and the three register codes are read back. -/
def Obligations.AssembledRegisterLineDecodesToItsRegisters : Prop :=
  ∀ (legacy : Bool) (mnemonic : List Char) (op : BitVec 8) (a b c : Fin 8),
    catalogLookup mnemonic = some (op, .r3) →
    ∃ w, assembleTokens legacy [mnemonic, registerToken a, registerToken b, registerToken c] = .ok w ∧
      opcodeField w = op ∧ (fieldA w).toNat = a ∧ (fieldB w).toNat = b ∧ (fieldC false w).toNat = c

/-- R89: a text whose lines all assemble gives one word a line, in order, and every such word decodes to an instruction
of the catalog. -/
def Obligations.AssembledTextIsOneInstructionPerLine : Prop :=
  ∀ (legacy : Bool) (lines : List (List Char)) (ws : List Word), assembleAll legacy lines = some ws →
    ws.length = lines.length ∧
    ∀ (n : Nat) (line : List Char), lines[n]? = some line →
      ∃ (w : Word) (i : Instr), ws[n]? = some w ∧ assemble legacy line = .ok w ∧ decode legacy w = .instr i

/-! ## The step (40_sequencer.md) -/

/-- R93: in a Ready core whose fetched word decodes to an instruction, the step is that instruction's execution and
nothing around it, and it reports `IndexFault` when the index checks fail and `None` otherwise (R104). -/
def Obligations.ReadyStepRunsTheDecodedInstruction : Prop :=
  ∀ (s : State) (w : Word) (i : Instr), s.ReadyWith w → decode s.params.legacyOverlap w = .instr i →
    step s = exec i s ∧
    (indexCheck i = none → stepCondition s = .none) ∧
    (∀ f, indexCheck i = some f → stepCondition s = .indexFault f)

/-- R156 and R168: a word whose opcode byte is 0x00 or 0x10 to 0xFE is reported by its byte and passed: `pc` advances,
one step is counted, nothing else changes. -/
def Obligations.UndefinedOpcodeIsReportedAndPassed : Prop :=
  ∀ (s : State) (w : Word), s.ReadyWith w →
    ((opcodeField w).toNat = 0 ∨ (16 ≤ (opcodeField w).toNat ∧ (opcodeField w).toNat ≤ 254)) →
    step s = .next { s with pc := s.pc + 1#32, stepCount := s.stepCount + 1 } ∧
    stepCondition s = .invalidOpcode (opcodeField w)

/-- R91 and R101 (D15, D16, logs 14 and 15): a recorded fault halts first, then program end, then the budget; with none
of them the core is Ready. -/
def Obligations.HaltCausesHaveAFixedPrecedence : Prop :=
  ∀ s : State,
    (∀ f, s.fault = some f → status s = .halted (.fault f)) ∧
    (s.fault = none → s.prog.length ≤ s.pc.toNat → status s = .halted .programEnd) ∧
    (s.fault = none → s.pc.toNat < s.prog.length → s.params.stepBudget ≤ s.stepCount →
      status s = .halted .stepBudgetExceeded) ∧
    (s.fault = none → s.pc.toNat < s.prog.length → s.stepCount < s.params.stepBudget → status s = .ready)

/-- R92 (D15, log 14): any number of steps of a Halted core, at least one, clears the flags, changes nothing else, and
reports the cause of the halt. -/
def Obligations.HaltedCoreOnlyClearsItsFlags : Prop :=
  ∀ (k : Nat) (s : State) (c : HaltCause), status s = .halted c →
    run (k + 1) s = .next { s with flags := ⟨false, false, false, false⟩ } ∧ stepCondition s = .halted c

/-- R93, R99, R104 and R165 (D16, D19, log 15): every step of every state answers a next state and a report of it. A
report of code 1 or 2 comes of a step that executed nothing; 4 leaves the core halted by a
register fault and 5 by a memory fault; 0 or 3 comes of
an executed word, which counts one step and records no fault. -/
def Obligations.EveryStepAnswersAndReportsItsCondition : Prop :=
  ∀ s : State, ∃ t, step s = .next t ∧
    stepReport s = some ⟨t.regs, t.mem, t.flags, status t, stepCondition s⟩ ∧
    ((stepCondition s).code = 1 ∨ (stepCondition s).code = 2 →
      t = { s with flags := Flags.allFalse } ∧ status t = status s) ∧
    ((stepCondition s).code = 4 →
      ∃ n, status t = .halted (.fault ⟨.register, n⟩) ∧ t.stepCount = s.stepCount ∧ t.pc = s.pc) ∧
    ((stepCondition s).code = 5 →
      ∃ n, status t = .halted (.fault ⟨.memory, n⟩) ∧ t.stepCount = s.stepCount ∧ t.pc = s.pc) ∧
    ((stepCondition s).code = 0 ∨ (stepCondition s).code = 3 →
      s.fault = none ∧ t.fault = none ∧ t.stepCount = s.stepCount + 1) ∧
    (stepCondition s).code ≤ 5

/-- R100 (D16, log 15) and R9, R30, R165: the invariant of `State.Inv` is kept by every step. -/
def Obligations.EveryStepKeepsTheInvariant : Prop :=
  ∀ s t : State, s.Inv → step s = .next t → t.Inv

/-- The reset state and every freshly constructed engine satisfy the invariant (R187; capacity bound of 00_scope.md R9).
The capacity of `State.reset` is the model's choice (log 3). -/
def Obligations.ConstructedEngineSatisfiesTheInvariant : Prop :=
  State.reset.Inv ∧ ∀ (p : Params) (words : List Word), p.capacityOk = true → (construct p words).Inv

/-- R107 (derived there; D16, log 15): from every state a run is Halted after at most as many steps as the budget has
left. -/
def Obligations.EveryRunHaltsWithinTheStepBudget : Prop :=
  ∀ s : State, ∃ k t, k ≤ s.params.stepBudget - s.stepCount ∧ run k s = .next t ∧ t.Halted

/-- R29 (derived there): from a state of a run, a step leaves `pc` at most at the larger of 65535 and `L + 1`; an executed
instruction that is no jump moves it up by exactly one, with no wrap. -/
def Obligations.ProgramCounterNeverWraps : Prop :=
  ∀ (s t : State) (w : Word), s.Inv → s.ReadyWith w → step s = .next t →
    t.pc.toNat ≤ max 65535 (s.prog.length + 1) ∧
    (∀ i, decode s.params.legacyOverlap w = .instr i → isJump i = false → t.fault = none →
      t.pc.toNat = s.pc.toNat + 1)

/-- R98 (D29, log 26), with the frame of each instruction: the only register that can change is the one that field A of a
MOV, ALU or LD instruction names; the only cell that can change is the one that the address field of a STR names, and a
STR changes no register; every other instruction leaves all of memory. The program and the parameters never change. -/
def Obligations.ExecutionWritesAtMostOneRegisterOrCell : Prop :=
  ∀ (i : Instr) (s t : State), exec i s = .next t →
    (t.regs = s.regs ∨ t.mem = s.mem) ∧
    (∀ r : Fin 8, (∀ a, destinationField i = some a → a.toNat ≠ r) → t.readReg r = s.readReg r) ∧
    (∀ a imm16, i = .str a imm16 → t.regs = s.regs ∧
      ∀ addr, addr ≠ imm16.toNat → Memory.read t.mem addr = Memory.read s.mem addr) ∧
    ((∀ a imm16, i ≠ .str a imm16) → t.mem = s.mem) ∧
    t.prog = s.prog ∧ t.params = s.params

/-! ## The ALU (41_alu.md) -/

/-- R111: MOV's encoding and its one write; the flags and all else stay. What a field A above 7 leaves (the fault recorded,
`pc` and step count kept) is R96's check and R170's fault, the spec's own decision D5 (log 16). -/
def Obligations.MovWritesTheZeroExtendedImmediate : Prop :=
  (∀ (legacy : Bool) (w : Word), opcodeField w = 0x01#8 →
    decode legacy w = .instr (.mov (w.extractLsb' 16 8) (w.extractLsb' 0 16))) ∧
  (∀ (a : BitVec 8) (imm16 : BitVec 16) (rd : Fin 8) (s : State), a.toNat = rd →
    exec (.mov a imm16) s = .next { s with
      regs := s.regs.set rd (imm16.setWidth 32), pc := s.pc + 1#32, stepCount := s.stepCount + 1 }) ∧
  (∀ (a : BitVec 8) (imm16 : BitVec 16) (s : State), 7 < a.toNat →
    exec (.mov a imm16) s = .next { s with fault := some ⟨.register, a.toNat⟩ })

/-- R112 (V on the truncated sum: D9): ADD completes with the wrapped sum and these flags, and changes nothing else. -/
def Obligations.AddWritesTheWrappedSumAndItsFlags : Prop :=
  ∀ (a b : BitVec 8) (c : BitVec 16) (rd rs : Fin 8) (s : State), a.toNat = rd → b.toNat = rs →
    ∃ (r : Word) (f : Flags),
      exec (.add a b c) s = .next { s with
        regs := s.regs.set rd r, flags := f, pc := s.pc + 1#32, stepCount := s.stepCount + 1 } ∧
      r = BitVec.ofInt 32 ((s.readReg rs).toInt + (s.resolve c).toInt) ∧
      f.z = decide (r = 0#32) ∧ f.n = decide (r.toInt < 0) ∧
      f.c = decide ((s.readReg rs).toInt + (s.resolve c).toInt > 2147483647) ∧
      f.v = ((s.readReg rs).msb == (s.resolve c).msb && r.msb != (s.readReg rs).msb)

/-- R113 (V on the truncated difference: D9): SUB completes with the wrapped difference and these flags. The carry is
stated for operands of one sign only: for opposite signs it rests on D10 (I6, log 10), and
`DecidedCornersOfTheAlu` states it. -/
def Obligations.SubWritesTheWrappedDifferenceAndItsFlags : Prop :=
  ∀ (a b : BitVec 8) (c : BitVec 16) (rd rs : Fin 8) (s : State), a.toNat = rd → b.toNat = rs →
    ∃ (r : Word) (f : Flags),
      exec (.sub a b c) s = .next { s with
        regs := s.regs.set rd r, flags := f, pc := s.pc + 1#32, stepCount := s.stepCount + 1 } ∧
      r = BitVec.ofInt 32 ((s.readReg rs).toInt - (s.resolve c).toInt) ∧
      f.z = decide (r = 0#32) ∧ f.n = decide (r.toInt < 0) ∧
      ((s.readReg rs).msb = (s.resolve c).msb → f.c = decide ((s.readReg rs).toNat < (s.resolve c).toNat)) ∧
      f.v = ((s.readReg rs).msb != (s.resolve c).msb && r.msb != (s.readReg rs).msb)

/-- R114 (the register write: D8) with R120: MUL completes with the low 32 bits of the product; C is the product out of
range, and V is the same but at `-1 * INT_MIN`, which rests on D11 (I15, log 12). -/
def Obligations.MulWritesTheLowProductAndItsFlags : Prop :=
  ∀ (a b : BitVec 8) (c : BitVec 16) (rd rs : Fin 8) (s : State), a.toNat = rd → b.toNat = rs →
    ∃ (r : Word) (f : Flags),
      exec (.mul a b c) s = .next { s with
        regs := s.regs.set rd r, flags := f, pc := s.pc + 1#32, stepCount := s.stepCount + 1 } ∧
      r = BitVec.ofInt 32 ((s.readReg rs).toInt * (s.resolve c).toInt) ∧
      f.z = decide (r = 0#32) ∧ f.n = decide (r.toInt < 0) ∧
      f.c = !inRange32 ((s.readReg rs).toInt * (s.resolve c).toInt) ∧
      (¬ ((s.readReg rs).toInt = -1 ∧ (s.resolve c).toInt = -2147483648) → f.v = f.c)

/-- R115 and R119: DIV by a non-zero divisor completes with the quotient rounded toward zero, C and V false. The one
quotient that does not fit, `INT_MIN / -1`, rests on D12 (I14, log 11) and stands in `DecidedCornersOfTheAlu`. -/
def Obligations.DivWritesTheQuotientTowardZero : Prop :=
  ∀ (a b : BitVec 8) (c : BitVec 16) (rd rs : Fin 8) (s : State), a.toNat = rd → b.toNat = rs →
    s.resolve c ≠ 0#32 → ¬ ((s.readReg rs).toInt = -2147483648 ∧ (s.resolve c).toInt = -1) →
    ∃ r : Word,
      exec (.div a b c) s = .next { s with
        regs := s.regs.set rd r, flags := ⟨decide (r = 0#32), decide (r.toInt < 0), false, false⟩,
        pc := s.pc + 1#32, stepCount := s.stepCount + 1 } ∧
      r.toInt.natAbs = (s.readReg rs).toInt.natAbs / (s.resolve c).toInt.natAbs ∧
      (r.toInt < 0 → ((s.readReg rs).toInt < 0 ↔ 0 < (s.resolve c).toInt)) ∧
      (0 < r.toInt → ((s.readReg rs).toInt < 0 ↔ (s.resolve c).toInt < 0))

/-- R169: division by zero is a silent no-op: in a Ready core the step writes no register and no flag, goes on at
`pc + 1`, and reports `None`. -/
def Obligations.DivisionByZeroIsASilentNoOp : Prop :=
  ∀ (s : State) (w : Word) (a b : BitVec 8) (c : BitVec 16) (rd rs : Fin 8),
    s.ReadyWith w → decode s.params.legacyOverlap w = .instr (.div a b c) → a.toNat = rd → b.toNat = rs →
    s.resolve c = 0#32 →
    step s = exec (.div a b c) s ∧
    exec (.div a b c) s = .next { s with pc := s.pc + 1#32, stepCount := s.stepCount + 1 } ∧
    stepCondition s = .none

/-- THE SPEC'S OWN CHOICES (logs 10, 11 and 12), not sentences of the source: SUB's carry is the signed borrow for
operands of every sign (D10, I6); `INT_MIN / -1` writes `INT_MIN` with V true (D12, I14); MUL of -1 by `INT_MIN` leaves V
false with C true (D11, I15). -/
def Obligations.DecidedCornersOfTheAlu : Prop :=
  ∀ (a b : BitVec 8) (c : BitVec 16) (rd rs : Fin 8) (s : State), a.toNat = rd → b.toNat = rs →
    (∃ t, exec (.sub a b c) s = .next t ∧
      t.flags.c = decide ((s.readReg rs).toInt - (s.resolve c).toInt < 0)) ∧
    (s.readReg rs = 0x80000000#32 → s.resolve c = 0xFFFFFFFF#32 →
      ∃ t, exec (.div a b c) s = .next t ∧ t.readReg rd = 0x80000000#32 ∧ t.flags = ⟨false, true, false, true⟩) ∧
    (s.readReg rs = 0xFFFFFFFF#32 → s.resolve c = 0x80000000#32 →
      ∃ t, exec (.mul a b c) s = .next t ∧ t.readReg rd = 0x80000000#32 ∧ t.flags = ⟨false, true, true, false⟩)

/-- R116 and R117 (AND's and OR's operands: D7, log 20): bit by bit, and every flag false. -/
def Obligations.AndOrAreBitwiseAndClearTheFlags : Prop :=
  ∀ (a b : BitVec 8) (c : BitVec 16) (rd rs : Fin 8) (s : State), a.toNat = rd → b.toNat = rs →
    (∃ r : Word, exec (.and a b c) s = .next { s with
        regs := s.regs.set rd r, flags := ⟨false, false, false, false⟩,
        pc := s.pc + 1#32, stepCount := s.stepCount + 1 } ∧
      ∀ n, r.getLsbD n = ((s.readReg rs).getLsbD n && (s.resolve c).getLsbD n)) ∧
    (∃ r : Word, exec (.or a b c) s = .next { s with
        regs := s.regs.set rd r, flags := ⟨false, false, false, false⟩,
        pc := s.pc + 1#32, stepCount := s.stepCount + 1 } ∧
      ∀ n, r.getLsbD n = ((s.readReg rs).getLsbD n || (s.resolve c).getLsbD n))

/-- R120 and R112, R113 (derived there; D9): V of ADD and of SUB is the exact result out of range, and C of ADD means two
non-negative operands. -/
def Obligations.OverflowFlagsMeanResultOutOfRange : Prop :=
  ∀ x y : Word,
    (addFlags x y).v = !inRange32 (x.toInt + y.toInt) ∧
    (subFlags x y).v = !inRange32 (x.toInt - y.toInt) ∧
    ((addFlags x y).c = true → 0 ≤ x.toInt ∧ 0 ≤ y.toInt ∧ (addFlags x y).v = true)

/-! ## Load and store (42_load_store.md, 20_memory.md) -/

/-- R130 (address check: D5, log 16): STR completes; the cell its address field names reads as the register, every other
cell reads as before, every flag is false, and nothing else changes but `pc` and the step count. -/
def Obligations.StrStoresTheRegisterAndClearsTheFlags : Prop :=
  ∀ (a : BitVec 8) (imm16 : BitVec 16) (ra : Fin 8) (s : State),
    a.toNat = ra → imm16.toNat < 256 → Memory.wf s.mem = true →
    ∃ m : Memory,
      exec (.str a imm16) s = .next { s with
        mem := m, flags := ⟨false, false, false, false⟩, pc := s.pc + 1#32, stepCount := s.stepCount + 1 } ∧
      Memory.wf m = true ∧ Memory.read m imm16.toNat = s.readReg ra ∧
      ∀ addr, addr ≠ imm16.toNat → Memory.read m addr = Memory.read s.mem addr

/-- R131 (address check: D5, log 16): LD completes with the cell's word in the register; memory, the flags and all else
stay. -/
def Obligations.LdLoadsTheCellAndKeepsTheFlags : Prop :=
  ∀ (a : BitVec 8) (imm16 : BitVec 16) (ra : Fin 8) (s : State), a.toNat = ra → imm16.toNat < 256 →
    exec (.ld a imm16) s = .next { s with
      regs := s.regs.set ra (Memory.read s.mem imm16.toNat), pc := s.pc + 1#32, stepCount := s.stepCount + 1 }

/-- R44: every instruction but LD and STR neither reads nor writes data memory: with other contents it does the same and
leaves them; LD moves one word from its cell and STR one word to it. -/
def Obligations.OnlyLoadAndStoreAccessDataMemory : Prop :=
  (∀ (i : Instr) (s t : State) (m : Memory), usesDataMemory i = false → exec i s = .next t →
    t.mem = s.mem ∧ exec i { s with mem := m } = .next { t with mem := m }) ∧
  (∀ (a : BitVec 8) (imm16 : BitVec 16) (ra : Fin 8) (s : State), a.toNat = ra → imm16.toNat < 256 →
    ∃ t, exec (.ld a imm16) s = .next t ∧ t.readReg ra = Memory.read s.mem imm16.toNat ∧ t.mem = s.mem ∧
      ∀ r, r ≠ ra → t.readReg r = s.readReg r) ∧
  (∀ (a : BitVec 8) (imm16 : BitVec 16) (ra : Fin 8) (s : State), a.toNat = ra → imm16.toNat < 256 →
    Memory.wf s.mem = true →
    ∃ t, exec (.str a imm16) s = .next t ∧ Memory.read t.mem imm16.toNat = s.readReg ra ∧ t.regs = s.regs ∧
      ∀ addr, addr ≠ imm16.toNat → Memory.read t.mem addr = Memory.read s.mem addr)

/-- R51 (derived there): after a STR to a cell, any number of steps later, a cell that no executed STR named since still
reads as the stored word. Said of one step: a step changes a cell only by an executed STR that names it. -/
def Obligations.CellChangesOnlyByAStoreToIt : Prop :=
  ∀ (s t : State) (addr : Nat), Memory.wf s.mem = true → step s = .next t →
    Memory.read t.mem addr ≠ Memory.read s.mem addr →
    ∃ (w : Word) (a : BitVec 8) (imm16 : BitVec 16) (ra : Fin 8),
      s.ReadyWith w ∧ decode s.params.legacyOverlap w = .instr (.str a imm16) ∧ imm16.toNat = addr ∧
        a.toNat = ra ∧ Memory.read t.mem addr = s.readReg ra

/-! ## Control transfer and NOP (43_branch.md, 44_nop_invalid.md) -/

/-- R140 (net target: D14; flags: D18, log 20) and R155: JMP goes to its field, NOP to `pc + 1`; one step is counted and
nothing else changes. -/
def Obligations.JmpAndNopWriteOnlyTheProgramCounter : Prop :=
  ∀ (imm16 : BitVec 16) (s : State),
    exec (.jmp imm16) s = .next { s with pc := imm16.setWidth 32, stepCount := s.stepCount + 1 } ∧
    exec .nop s = .next { s with pc := s.pc + 1#32, stepCount := s.stepCount + 1 }

/-- R141 to R144 (raw target: D13; net target: D14, log 20): each conditional jump compares two registers, goes to its
raw third field when taken and to `pc + 1` when not, and changes nothing else. -/
def Obligations.ConditionalJumpsCompareTwoRegisters : Prop :=
  ∀ (a b : BitVec 8) (c : BitVec 16) (ra rb : Fin 8) (s : State), a.toNat = ra → b.toNat = rb →
    (∀ p : Word, (p = if (s.readReg ra).toInt = (s.readReg rb).toInt then c.setWidth 32 else s.pc + 1#32) →
      exec (.jmpe a b c) s = .next { s with pc := p, stepCount := s.stepCount + 1 }) ∧
    (∀ p : Word, (p = if (s.readReg ra).toInt ≠ (s.readReg rb).toInt then c.setWidth 32 else s.pc + 1#32) →
      exec (.jmpn a b c) s = .next { s with pc := p, stepCount := s.stepCount + 1 }) ∧
    (∀ p : Word, (p = if (s.readReg ra).toInt > (s.readReg rb).toInt then c.setWidth 32 else s.pc + 1#32) →
      exec (.jmpg a b c) s = .next { s with pc := p, stepCount := s.stepCount + 1 }) ∧
    (∀ p : Word, (p = if (s.readReg ra).toInt < (s.readReg rb).toInt then c.setWidth 32 else s.pc + 1#32) →
      exec (.jmpl a b c) s = .next { s with pc := p, stepCount := s.stepCount + 1 })

/-- R145 (increment after the clamp: D14, I17, log 13): JMPR goes one past `pc + x[A]` when that lies in the program and
to `L + 1` otherwise, and changes nothing else. The program is within the bound of 00_scope.md R9. -/
def Obligations.JmprGoesOnePastTheClampedSum : Prop :=
  ∀ (a : BitVec 8) (ra : Fin 8) (s : State), a.toNat = ra → s.prog.length < 4294967295 →
    ∃ p : Word,
      exec (.jmpr a) s = .next { s with pc := p, stepCount := s.stepCount + 1 } ∧
      (0 ≤ (s.pc.toNat : Int) + (s.readReg ra).toInt →
        (s.pc.toNat : Int) + (s.readReg ra).toInt < s.prog.length →
        (p.toNat : Int) = (s.pc.toNat : Int) + (s.readReg ra).toInt + 1) ∧
      ((s.pc.toNat : Int) + (s.readReg ra).toInt < 0 ∨ s.prog.length ≤ (s.pc.toNat : Int) + (s.readReg ra).toInt →
        p.toNat = s.prog.length + 1)

/-- R148 (derived there; D14, I17, log 13): JMPR never lands on index 0, and lands on every index from 1 to L for some
register value. R148 says the latter of every L; a 32-bit signed offset reaches that far only when the program has at
most 2^31 words, so that is a premise (log 21). -/
def Obligations.JmprReachesEveryIndexButZero : Prop :=
  ∀ (s : State) (ra : Fin 8) (a : BitVec 8), a.toNat = ra → s.pc.toNat < s.prog.length →
    s.prog.length ≤ 2147483648 →
    (∀ t, exec (.jmpr a) s = .next t → 1 ≤ t.pc.toNat ∧ t.pc.toNat ≤ s.prog.length + 1) ∧
    (∀ q, 1 ≤ q → q ≤ s.prog.length →
      ∃ v t, exec (.jmpr a) (s.writeReg ra v) = .next t ∧ t.pc.toNat = q ∧ t.fault = s.fault)

/-- R149: no branch reads the flags: with other flags it does the same and leaves those. That none writes them is R141 to
R144's "no flag update", and for JMP and JMPR (R140, R145) the spec's own decision D18 (log 20). -/
def Obligations.NoBranchReadsTheFlags : Prop :=
  ∀ (i : Instr) (s t : State) (f : Flags), isJump i = true → exec i s = .next t →
    t.flags = s.flags ∧ exec i (s.withFlags f) = .next (t.withFlags f)

/-- R26 (derived there): the flags are an output only. Two runs from states that differ in the flags alone stay the same
in everything else, for any number of steps. -/
def Obligations.RunsIgnoreTheFlags : Prop :=
  ∀ (k : Nat) (s s' : State), s.SameButFlags s' →
    ∃ t t', run k s = .next t ∧ run k s' = .next t' ∧ t.SameButFlags t'

/-- R25: MOV, LD, the jumps and NOP leave the flags; an executed AND, OR or STR leaves them all false; an execution that
faults leaves them (D5, log 16). -/
def Obligations.FlagsChangeOnlyByTheirWriters : Prop :=
  ∀ (i : Instr) (s t : State), exec i s = .next t →
    (isJump i = true ∨ i = .nop ∨ (∃ a imm16, i = .mov a imm16) ∨ (∃ a imm16, i = .ld a imm16) → t.flags = s.flags) ∧
    (indexCheck i = none →
      (∃ a b c, i = .and a b c) ∨ (∃ a b c, i = .or a b c) ∨ (∃ a imm16, i = .str a imm16) →
      t.flags = ⟨false, false, false, false⟩) ∧
    (∀ f, indexCheck i = some f → t.flags = s.flags)

/-! ## Index faults (40_sequencer.md R96, 60_exceptions.md R170 to R173) -/

/-- R170 and R172 (D5, log 16): when the index checks fail, the fault is recorded and nothing else changes; when they
pass, the instruction executes: one step is counted and no fault is recorded. -/
def Obligations.FailedIndexCheckIsAPreciseFault : Prop :=
  ∀ (i : Instr) (s : State),
    (∀ f, indexCheck i = some f → exec i s = .next { s with fault := some f }) ∧
    (indexCheck i = none → ∃ t, exec i s = .next t ∧ t.fault = s.fault ∧ t.stepCount = s.stepCount + 1)

/-- R96 and R171 (D5, D21, log 16): field A is checked first, then field B, then the data address, with the offending
value recorded. -/
def Obligations.IndexFaultsComeInOperandOrder : Prop :=
  ∀ (a b : BitVec 8) (c imm16 : BitVec 16) (s : State),
    (7 < a.toNat → ∀ i ∈ [Instr.mov a imm16, .add a b c, .sub a b c, .mul a b c, .div a b c, .and a b c, .or a b c,
        .str a imm16, .ld a imm16, .jmpe a b c, .jmpn a b c, .jmpg a b c, .jmpl a b c, .jmpr a],
      exec i s = .next { s with fault := some ⟨.register, a.toNat⟩ }) ∧
    (a.toNat ≤ 7 → 7 < b.toNat → ∀ i ∈ [Instr.add a b c, .sub a b c, .mul a b c, .div a b c, .and a b c, .or a b c,
        .jmpe a b c, .jmpn a b c, .jmpg a b c, .jmpl a b c],
      exec i s = .next { s with fault := some ⟨.register, b.toNat⟩ }) ∧
    (a.toNat ≤ 7 → 255 < imm16.toNat → ∀ i ∈ [Instr.str a imm16, .ld a imm16],
      exec i s = .next { s with fault := some ⟨.memory, imm16.toNat⟩ })

/-- R173 (D5, D26, log 16): whatever the host does short of `reset()`, a recorded fault stays, and registers, memory and
step count with it; after `reset()` it is gone. -/
def Obligations.FaultIsStickyUntilReset : Prop :=
  ∀ (ops : List HostOp) (s : State) (f : IndexFault), s.fault = some f → (∀ op ∈ ops, op ≠ .reset) →
    ∃ t, hostRun ops s = .next t ∧ t.fault = some f ∧ t.regs = s.regs ∧ t.mem = s.mem ∧
      t.stepCount = s.stepCount ∧ t.hostReset.fault = none

/-! ## Construction, reset and host operations (70_reset_and_hazards.md) -/

/-- R187 (loading: R192, D3, log 18): every piece of state of a constructed engine has the value R39 gives it, and the
program is the first words that the capacity takes. -/
def Obligations.ConstructionGivesTheResetValues : Prop :=
  ∀ (p : Params) (words : List Word) (s : State), s = construct p words →
    (∀ r, s.readReg r = 0#32) ∧ (∀ a, Memory.read s.mem a = 0#32) ∧ s.pc = 0#32 ∧
    s.flags = ⟨false, false, false, false⟩ ∧ s.stepCount = 0 ∧ s.fault = none ∧ s.params = p ∧
    s.prog.length = min p.progCapacity words.length ∧ ∀ n, n < p.progCapacity → s.prog[n]? = words[n]?

/-- R188 (step count and fault: D17): after any host operations `reset()` gives the freshly constructed engine of the same
program and parameters; in particular nothing the host can do after loading changes those. -/
def Obligations.ResetGivesAFreshEngine : Prop :=
  ∀ (ops : List HostOp) (p : Params) (words : List Word),
    ∃ t, hostRun ops (construct p words) = .next t ∧ t.hostReset = construct p words ∧
      t.prog = (construct p words).prog ∧ t.params = p

/-- R189 (D26): `setProgramCounter` writes `pc` alone; the status follows from the new `pc`. -/
def Obligations.SetProgramCounterWritesOnlyThePc : Prop :=
  ∀ (s : State) (v : Word),
    hostOp (.setProgramCounter v) s = .next { s with pc := v } ∧
    (s.fault = none → s.prog.length ≤ v.toNat → status (s.setProgramCounter v) = .halted .programEnd) ∧
    (s.fault = none → v.toNat < s.prog.length → s.stepCount < s.params.stepBudget →
      status (s.setProgramCounter v) = .ready) ∧
    (∀ f, s.fault = some f → status (s.setProgramCounter v) = .halted (.fault f))

/-- R190: `configureStepInterval` has no effect, wherever it stands among the host's operations. -/
def Obligations.StepIntervalHasNoEffect : Prop :=
  ∀ (before after : List HostOp) (v : Nat) (s : State),
    hostOp (.configureStepInterval v) s = .next s ∧
    hostRun (before ++ .configureStepInterval v :: after) s = hostRun (before ++ after) s

/-- Every host operation keeps the invariant (R91, R188, R189), so every state that a host can bring a constructed engine
to satisfies it. -/
def Obligations.HostOperationsKeepTheInvariant : Prop :=
  ∀ (ops : List HostOp) (s t : State), s.Inv → hostRun ops s = .next t → t.Inv
end

