-- ==== Sys2Proof/Laws/Encoding.lean ====
section
/-! SUPPORT. The fields of each encoded format (30_encoding.md R56, R69), and what the decoder answers for each opcode
byte (R63). -/

namespace Sys2Proof

variable (op a b : BitVec 8) (c imm16 : BitVec 16)

/-! ### Format R3 -/

@[simp] theorem opcodeField_encodeR3 : opcodeField (encodeR3 op a b c) = op := by
  ext i hi; interval_cases i <;> simp [opcodeField, encodeR3, BitVec.getLsbD_of_ge]

@[simp] theorem fieldA_encodeR3 : fieldA (encodeR3 op a b c) = a := by
  ext i hi; interval_cases i <;> simp [fieldA, encodeR3, BitVec.getLsbD_of_ge]

/-- A C wider than 8 bits runs into B (R82). -/
theorem fieldB_encodeR3 : fieldB (encodeR3 op a b c) = b ||| c.extractLsb' 8 8 := by
  ext i hi; interval_cases i <;> simp [fieldB, encodeR3]

theorem imm16Field_encodeR3 : imm16Field (encodeR3 op a b c) = b.setWidth 16 <<< 8 ||| c := by
  ext i hi; interval_cases i <;> simp [imm16Field, encodeR3]

theorem lowByte_encodeR3 : (encodeR3 op a b c).extractLsb' 0 8 = c.extractLsb' 0 8 := by
  ext i hi; interval_cases i <;> simp [encodeR3]

/-! ### Formats RI, J, R1, N -/

@[simp] theorem opcodeField_encodeRI : opcodeField (encodeRI op a imm16) = op := by
  ext i hi; interval_cases i <;> simp [opcodeField, encodeRI, BitVec.getLsbD_of_ge]

@[simp] theorem fieldA_encodeRI : fieldA (encodeRI op a imm16) = a := by
  ext i hi; interval_cases i <;> simp [fieldA, encodeRI, BitVec.getLsbD_of_ge]

@[simp] theorem imm16Field_encodeRI : imm16Field (encodeRI op a imm16) = imm16 := by
  ext i hi; interval_cases i <;> simp [imm16Field, encodeRI]

@[simp] theorem opcodeField_encodeJ : opcodeField (encodeJ op imm16) = op := by
  ext i hi; interval_cases i <;> simp [opcodeField, encodeJ, BitVec.getLsbD_of_ge]

@[simp] theorem imm16Field_encodeJ : imm16Field (encodeJ op imm16) = imm16 := by
  ext i hi; interval_cases i <;> simp [imm16Field, encodeJ]

@[simp] theorem opcodeField_encodeR1 : opcodeField (encodeR1 op a) = op := by
  ext i hi; interval_cases i <;> simp [opcodeField, encodeR1, BitVec.getLsbD_of_ge]

@[simp] theorem fieldA_encodeR1 : fieldA (encodeR1 op a) = a := by
  ext i hi; interval_cases i <;> simp [fieldA, encodeR1]

@[simp] theorem opcodeField_encodeN : opcodeField (encodeN op) = op := by
  ext i hi; interval_cases i <;> simp [opcodeField, encodeN]

/-! ### The third operand under each layout (R58) -/

theorem thirdFieldFits_legacy : thirdFieldFits true b c = true ↔ c.extractLsb' 8 8 = b := by simp [thirdFieldFits]

theorem thirdFieldFits_default : thirdFieldFits false b c = true ↔ c.toNat < 256 := by simp [thirdFieldFits]

theorem fieldC_legacy (w : Word) : fieldC true w = w.extractLsb' 0 16 := rfl

theorem fieldC_default (w : Word) : fieldC false w = (w.extractLsb' 0 8).setWidth 16 := rfl

/-! ### The decoder, one lemma per opcode byte -/

theorem decode_mov (legacy : Bool) (w : Word) (h : opcodeField w = 0x01#8) :
    decode legacy w = .instr (.mov (fieldA w) (imm16Field w)) := by simp [decode, h]

theorem decode_add (legacy : Bool) (w : Word) (h : opcodeField w = 0x02#8) :
    decode legacy w = .instr (.add (fieldA w) (fieldB w) (fieldC legacy w)) := by simp [decode, h]

theorem decode_sub (legacy : Bool) (w : Word) (h : opcodeField w = 0x03#8) :
    decode legacy w = .instr (.sub (fieldA w) (fieldB w) (fieldC legacy w)) := by simp [decode, h]

theorem decode_mul (legacy : Bool) (w : Word) (h : opcodeField w = 0x04#8) :
    decode legacy w = .instr (.mul (fieldA w) (fieldB w) (fieldC legacy w)) := by simp [decode, h]

theorem decode_div (legacy : Bool) (w : Word) (h : opcodeField w = 0x05#8) :
    decode legacy w = .instr (.div (fieldA w) (fieldB w) (fieldC legacy w)) := by simp [decode, h]

theorem decode_and (legacy : Bool) (w : Word) (h : opcodeField w = 0x06#8) :
    decode legacy w = .instr (.and (fieldA w) (fieldB w) (fieldC legacy w)) := by simp [decode, h]

theorem decode_or (legacy : Bool) (w : Word) (h : opcodeField w = 0x07#8) :
    decode legacy w = .instr (.or (fieldA w) (fieldB w) (fieldC legacy w)) := by simp [decode, h]

theorem decode_str (legacy : Bool) (w : Word) (h : opcodeField w = 0x08#8) :
    decode legacy w = .instr (.str (fieldA w) (imm16Field w)) := by simp [decode, h]

theorem decode_ld (legacy : Bool) (w : Word) (h : opcodeField w = 0x09#8) :
    decode legacy w = .instr (.ld (fieldA w) (imm16Field w)) := by simp [decode, h]

theorem decode_jmp (legacy : Bool) (w : Word) (h : opcodeField w = 0x0A#8) :
    decode legacy w = .instr (.jmp (imm16Field w)) := by simp [decode, h]

theorem decode_jmpe (legacy : Bool) (w : Word) (h : opcodeField w = 0x0B#8) :
    decode legacy w = .instr (.jmpe (fieldA w) (fieldB w) (fieldC legacy w)) := by simp [decode, h]

theorem decode_jmpn (legacy : Bool) (w : Word) (h : opcodeField w = 0x0C#8) :
    decode legacy w = .instr (.jmpn (fieldA w) (fieldB w) (fieldC legacy w)) := by simp [decode, h]

theorem decode_jmpg (legacy : Bool) (w : Word) (h : opcodeField w = 0x0D#8) :
    decode legacy w = .instr (.jmpg (fieldA w) (fieldB w) (fieldC legacy w)) := by simp [decode, h]

theorem decode_jmpl (legacy : Bool) (w : Word) (h : opcodeField w = 0x0E#8) :
    decode legacy w = .instr (.jmpl (fieldA w) (fieldB w) (fieldC legacy w)) := by simp [decode, h]

theorem decode_jmpr (legacy : Bool) (w : Word) (h : opcodeField w = 0x0F#8) :
    decode legacy w = .instr (.jmpr (fieldA w)) := by simp [decode, h]

theorem decode_nop (legacy : Bool) (w : Word) (h : opcodeField w = 0xFF#8) :
    decode legacy w = .instr (.nop) := by simp [decode, h]

end Sys2Proof
end

