-- ==== Sys2Proof/Laws/State.lean ====
section
/-! SUPPORT. One lemma per field per state update, each true by rfl, and the register file's read-after-write laws. -/

namespace Sys2Proof.Machine

variable (s : State)

/-! ### writeReg -/

@[simp] theorem State.writeReg_regs (r : Fin 8) (v : Word) : (s.writeReg r v).regs = s.regs.set r v := rfl
@[simp] theorem State.writeReg_flags (r : Fin 8) (v : Word) : (s.writeReg r v).flags = s.flags := rfl
@[simp] theorem State.writeReg_pc (r : Fin 8) (v : Word) : (s.writeReg r v).pc = s.pc := rfl
@[simp] theorem State.writeReg_mem (r : Fin 8) (v : Word) : (s.writeReg r v).mem = s.mem := rfl
@[simp] theorem State.writeReg_stepCount (r : Fin 8) (v : Word) : (s.writeReg r v).stepCount = s.stepCount := rfl
@[simp] theorem State.writeReg_fault (r : Fin 8) (v : Word) : (s.writeReg r v).fault = s.fault := rfl
@[simp] theorem State.writeReg_prog (r : Fin 8) (v : Word) : (s.writeReg r v).prog = s.prog := rfl
@[simp] theorem State.writeReg_params (r : Fin 8) (v : Word) : (s.writeReg r v).params = s.params := rfl

/-! ### setFlags -/

@[simp] theorem State.setFlags_regs (f : Flags) : (s.setFlags f).regs = s.regs := rfl
@[simp] theorem State.setFlags_flags (f : Flags) : (s.setFlags f).flags = f := rfl
@[simp] theorem State.setFlags_pc (f : Flags) : (s.setFlags f).pc = s.pc := rfl
@[simp] theorem State.setFlags_mem (f : Flags) : (s.setFlags f).mem = s.mem := rfl
@[simp] theorem State.setFlags_stepCount (f : Flags) : (s.setFlags f).stepCount = s.stepCount := rfl
@[simp] theorem State.setFlags_fault (f : Flags) : (s.setFlags f).fault = s.fault := rfl
@[simp] theorem State.setFlags_prog (f : Flags) : (s.setFlags f).prog = s.prog := rfl
@[simp] theorem State.setFlags_params (f : Flags) : (s.setFlags f).params = s.params := rfl

/-! ### storeWord -/

@[simp] theorem State.storeWord_regs (a : Fin 256) (v : Word) : (s.storeWord a v).regs = s.regs := rfl
@[simp] theorem State.storeWord_flags (a : Fin 256) (v : Word) : (s.storeWord a v).flags = s.flags := rfl
@[simp] theorem State.storeWord_pc (a : Fin 256) (v : Word) : (s.storeWord a v).pc = s.pc := rfl
@[simp] theorem State.storeWord_mem (a : Fin 256) (v : Word) : (s.storeWord a v).mem = Memory.write s.mem a v := rfl
@[simp] theorem State.storeWord_stepCount (a : Fin 256) (v : Word) : (s.storeWord a v).stepCount = s.stepCount := rfl
@[simp] theorem State.storeWord_fault (a : Fin 256) (v : Word) : (s.storeWord a v).fault = s.fault := rfl
@[simp] theorem State.storeWord_prog (a : Fin 256) (v : Word) : (s.storeWord a v).prog = s.prog := rfl
@[simp] theorem State.storeWord_params (a : Fin 256) (v : Word) : (s.storeWord a v).params = s.params := rfl

/-! ### retire -/

@[simp] theorem State.retire_regs (npc : Word) : (s.retire npc).regs = s.regs := rfl
@[simp] theorem State.retire_flags (npc : Word) : (s.retire npc).flags = s.flags := rfl
@[simp] theorem State.retire_pc (npc : Word) : (s.retire npc).pc = npc := rfl
@[simp] theorem State.retire_mem (npc : Word) : (s.retire npc).mem = s.mem := rfl
@[simp] theorem State.retire_stepCount (npc : Word) : (s.retire npc).stepCount = s.stepCount + 1 := rfl
@[simp] theorem State.retire_fault (npc : Word) : (s.retire npc).fault = s.fault := rfl
@[simp] theorem State.retire_prog (npc : Word) : (s.retire npc).prog = s.prog := rfl
@[simp] theorem State.retire_params (npc : Word) : (s.retire npc).params = s.params := rfl

/-! ### raiseIndexFault -/

@[simp] theorem State.raiseIndexFault_regs (k : IndexKind) (n : Nat) : (s.raiseIndexFault k n).regs = s.regs := rfl
@[simp] theorem State.raiseIndexFault_flags (k : IndexKind) (n : Nat) : (s.raiseIndexFault k n).flags = s.flags := rfl
@[simp] theorem State.raiseIndexFault_pc (k : IndexKind) (n : Nat) : (s.raiseIndexFault k n).pc = s.pc := rfl
@[simp] theorem State.raiseIndexFault_mem (k : IndexKind) (n : Nat) : (s.raiseIndexFault k n).mem = s.mem := rfl
@[simp] theorem State.raiseIndexFault_stepCount (k : IndexKind) (n : Nat) : (s.raiseIndexFault k n).stepCount = s.stepCount := rfl
@[simp] theorem State.raiseIndexFault_fault (k : IndexKind) (n : Nat) : (s.raiseIndexFault k n).fault = some ⟨k, n⟩ := rfl
@[simp] theorem State.raiseIndexFault_prog (k : IndexKind) (n : Nat) : (s.raiseIndexFault k n).prog = s.prog := rfl
@[simp] theorem State.raiseIndexFault_params (k : IndexKind) (n : Nat) : (s.raiseIndexFault k n).params = s.params := rfl

/-! ### hostReset -/

@[simp] theorem State.hostReset_regs : (s.hostReset).regs = Vector.replicate 8 0#32 := rfl
@[simp] theorem State.hostReset_flags : (s.hostReset).flags = Flags.allFalse := rfl
@[simp] theorem State.hostReset_pc : (s.hostReset).pc = 0#32 := rfl
@[simp] theorem State.hostReset_mem : (s.hostReset).mem = [] := rfl
@[simp] theorem State.hostReset_stepCount : (s.hostReset).stepCount = 0 := rfl
@[simp] theorem State.hostReset_fault : (s.hostReset).fault = none := rfl
@[simp] theorem State.hostReset_prog : (s.hostReset).prog = s.prog := rfl
@[simp] theorem State.hostReset_params : (s.hostReset).params = s.params := rfl

/-! ### setProgramCounter -/

@[simp] theorem State.setProgramCounter_regs (v : Word) : (s.setProgramCounter v).regs = s.regs := rfl
@[simp] theorem State.setProgramCounter_flags (v : Word) : (s.setProgramCounter v).flags = s.flags := rfl
@[simp] theorem State.setProgramCounter_pc (v : Word) : (s.setProgramCounter v).pc = v := rfl
@[simp] theorem State.setProgramCounter_mem (v : Word) : (s.setProgramCounter v).mem = s.mem := rfl
@[simp] theorem State.setProgramCounter_stepCount (v : Word) : (s.setProgramCounter v).stepCount = s.stepCount := rfl
@[simp] theorem State.setProgramCounter_fault (v : Word) : (s.setProgramCounter v).fault = s.fault := rfl
@[simp] theorem State.setProgramCounter_prog (v : Word) : (s.setProgramCounter v).prog = s.prog := rfl
@[simp] theorem State.setProgramCounter_params (v : Word) : (s.setProgramCounter v).params = s.params := rfl

/-! ### withFlags -/

@[simp] theorem State.withFlags_regs (f : Flags) : (s.withFlags f).regs = s.regs := rfl
@[simp] theorem State.withFlags_flags (f : Flags) : (s.withFlags f).flags = f := rfl
@[simp] theorem State.withFlags_pc (f : Flags) : (s.withFlags f).pc = s.pc := rfl
@[simp] theorem State.withFlags_mem (f : Flags) : (s.withFlags f).mem = s.mem := rfl
@[simp] theorem State.withFlags_stepCount (f : Flags) : (s.withFlags f).stepCount = s.stepCount := rfl
@[simp] theorem State.withFlags_fault (f : Flags) : (s.withFlags f).fault = s.fault := rfl
@[simp] theorem State.withFlags_prog (f : Flags) : (s.withFlags f).prog = s.prog := rfl
@[simp] theorem State.withFlags_params (f : Flags) : (s.withFlags f).params = s.params := rfl

/-! ### haltedStep and undefinedOpcode -/

@[simp] theorem haltedStep_regs : (haltedStep s).regs = s.regs := rfl
@[simp] theorem haltedStep_flags : (haltedStep s).flags = Flags.allFalse := rfl
@[simp] theorem haltedStep_pc : (haltedStep s).pc = s.pc := rfl
@[simp] theorem haltedStep_mem : (haltedStep s).mem = s.mem := rfl
@[simp] theorem haltedStep_stepCount : (haltedStep s).stepCount = s.stepCount := rfl
@[simp] theorem haltedStep_fault : (haltedStep s).fault = s.fault := rfl
@[simp] theorem haltedStep_prog : (haltedStep s).prog = s.prog := rfl
@[simp] theorem haltedStep_params : (haltedStep s).params = s.params := rfl
@[simp] theorem undefinedOpcode_regs : (undefinedOpcode s).regs = s.regs := rfl
@[simp] theorem undefinedOpcode_flags : (undefinedOpcode s).flags = s.flags := rfl
@[simp] theorem undefinedOpcode_pc : (undefinedOpcode s).pc = s.nextPc := rfl
@[simp] theorem undefinedOpcode_mem : (undefinedOpcode s).mem = s.mem := rfl
@[simp] theorem undefinedOpcode_stepCount : (undefinedOpcode s).stepCount = s.stepCount + 1 := rfl
@[simp] theorem undefinedOpcode_fault : (undefinedOpcode s).fault = s.fault := rfl
@[simp] theorem undefinedOpcode_prog : (undefinedOpcode s).prog = s.prog := rfl
@[simp] theorem undefinedOpcode_params : (undefinedOpcode s).params = s.params := rfl

/-! ### Register reads -/

@[simp] theorem State.readReg_writeReg_same (r : Fin 8) (v : Word) : (s.writeReg r v).readReg r = v := by
  simp [State.readReg]

theorem State.readReg_writeReg_other (r q : Fin 8) (v : Word) (h : q ≠ r) :
    (s.writeReg r v).readReg q = s.readReg q := by
  have : (r : Nat) ≠ q := fun e => h (Fin.ext e.symm)
  simp [State.readReg, this]

@[simp] theorem State.readReg_setFlags (f : Flags) (q : Fin 8) : (s.setFlags f).readReg q = s.readReg q := rfl
@[simp] theorem State.readReg_storeWord (a : Fin 256) (v : Word) (q : Fin 8) :
    (s.storeWord a v).readReg q = s.readReg q := rfl
@[simp] theorem State.readReg_retire (npc : Word) (q : Fin 8) : (s.retire npc).readReg q = s.readReg q := rfl
@[simp] theorem State.readReg_raiseIndexFault (k : IndexKind) (n : Nat) (q : Fin 8) :
    (s.raiseIndexFault k n).readReg q = s.readReg q := rfl
@[simp] theorem State.readReg_withFlags (f : Flags) (q : Fin 8) : (s.withFlags f).readReg q = s.readReg q := rfl

/-! ### Data-memory reads through a state -/

@[simp] theorem State.loadWord_writeReg (r : Fin 8) (v : Word) (a : Fin 256) :
    (s.writeReg r v).loadWord a = s.loadWord a := rfl
@[simp] theorem State.loadWord_setFlags (f : Flags) (a : Fin 256) : (s.setFlags f).loadWord a = s.loadWord a := rfl
@[simp] theorem State.loadWord_retire (npc : Word) (a : Fin 256) : (s.retire npc).loadWord a = s.loadWord a := rfl
@[simp] theorem State.loadWord_raiseIndexFault (k : IndexKind) (n : Nat) (a : Fin 256) :
    (s.raiseIndexFault k n).loadWord a = s.loadWord a := rfl
@[simp] theorem State.loadWord_withFlags (f : Flags) (a : Fin 256) : (s.withFlags f).loadWord a = s.loadWord a := rfl

end Sys2Proof.Machine
end

