-- ==== Sys2Proof/Laws/Memory.lean ====
section
/-! SUPPORT. Data memory: read after write, the canonical form that every write keeps, and equality of canonical
memories. -/

namespace Sys2Proof.Machine

@[simp] theorem Memory.read_nil (a : Nat) : Memory.read [] a = Memory.unlisted := rfl

@[simp] theorem Memory.wf_nil : Memory.wf [] = true := rfl

theorem Memory.wfFrom_cons (lo k : Nat) (v : Word) (m : Memory) :
    Memory.wfFrom lo ((k, v) :: m) = true ↔
      lo ≤ k ∧ k < 256 ∧ v ≠ Memory.unlisted ∧ Memory.wfFrom (k + 1) m = true := by
  simp [Memory.wfFrom, and_assoc]

theorem Memory.wfFrom_mono {lo lo' : Nat} {m : Memory} (h : lo' ≤ lo) (hm : Memory.wfFrom lo m = true) :
    Memory.wfFrom lo' m = true := by
  cases m with
  | nil => rfl
  | cons e m =>
    obtain ⟨k, v⟩ := e
    rw [Memory.wfFrom_cons] at hm ⊢
    exact ⟨h.trans hm.1, hm.2⟩

/-- Below the first listed address nothing is listed. -/
theorem Memory.read_below {lo a : Nat} {m : Memory} (hm : Memory.wfFrom lo m = true) (h : a < lo) :
    Memory.read m a = Memory.unlisted := by
  induction m generalizing lo with
  | nil => rfl
  | cons e m ih =>
    obtain ⟨k, v⟩ := e
    rw [Memory.wfFrom_cons] at hm
    have hk : k ≠ a := by omega
    simpa [Memory.read, hk] using ih hm.2.2.2 (by omega)

/-- A write leaves every other cell alone, whatever the memory. -/
theorem Memory.read_write_other (m : Memory) {a b : Nat} (v : Word) (h : b ≠ a) :
    Memory.read (Memory.write m a v) b = Memory.read m b := by
  induction m with
  | nil => by_cases hv : v = Memory.unlisted <;> simp [Memory.write, Memory.read, hv, h.symm]
  | cons e m ih =>
    obtain ⟨k, u⟩ := e
    simp only [Memory.write]
    split
    · by_cases hv : v = Memory.unlisted <;> simp [Memory.read, hv, h.symm]
    · split
      · next he => by_cases hv : v = Memory.unlisted <;> simp [Memory.read, hv, ← he, h.symm]
      · simp [Memory.read, ih]

/-- A read of the written cell of a canonical memory gives the word written. -/
theorem Memory.read_write_same {lo : Nat} {m : Memory} (hm : Memory.wfFrom lo m = true) (a : Nat) (v : Word) :
    Memory.read (Memory.write m a v) a = v := by
  induction m generalizing lo with
  | nil => by_cases hv : v = Memory.unlisted <;> simp [Memory.write, Memory.read, hv]
  | cons e m ih =>
    obtain ⟨k, u⟩ := e
    have hm' := (Memory.wfFrom_cons ..).1 hm
    simp only [Memory.write]
    split
    · next hlt =>
      by_cases hv : v = Memory.unlisted
      · have := Memory.read_below (a := a) hm'.2.2.2 (by omega)
        simp [Memory.read, hv, this, show k ≠ a by omega]
      · simp [Memory.read, hv]
    · split
      · next he =>
        by_cases hv : v = Memory.unlisted
        · simp [hv, Memory.read_below (a := a) hm'.2.2.2 (by omega)]
        · simp [Memory.read, hv]
      · next he => simp [Memory.read, show k ≠ a from fun h => he h.symm, ih hm'.2.2.2]

/-- A write inside the 256 cells keeps the canonical form. -/
theorem Memory.wfFrom_write {lo a : Nat} {m : Memory} (hm : Memory.wfFrom lo m = true) (hlo : lo ≤ a) (ha : a < 256)
    (v : Word) : Memory.wfFrom lo (Memory.write m a v) = true := by
  induction m generalizing lo with
  | nil => by_cases hv : v = Memory.unlisted <;> simp [Memory.write, Memory.wfFrom, hv, hlo, ha]
  | cons e m ih =>
    obtain ⟨k, u⟩ := e
    have hm' := (Memory.wfFrom_cons ..).1 hm
    simp only [Memory.write]
    split
    · next hlt =>
      by_cases hv : v = Memory.unlisted
      · simpa [hv] using hm
      · simp only [hv, if_false, Memory.wfFrom_cons]
        exact ⟨hlo, ha, hv, by omega, hm'.2⟩
    · split
      · next he =>
        by_cases hv : v = Memory.unlisted
        · simpa [hv] using Memory.wfFrom_mono (by omega) hm'.2.2.2
        · simp only [hv, if_false, Memory.wfFrom_cons]
          exact ⟨hlo, ha, hv, he ▸ hm'.2.2.2⟩
      · rw [Memory.wfFrom_cons]
        exact ⟨hm'.1, hm'.2.1, hm'.2.2.1, ih hm'.2.2.2 (by omega)⟩

theorem Memory.wf_write {m : Memory} (hm : Memory.wf m = true) (a : Fin 256) (v : Word) :
    Memory.wf (Memory.write m a v) = true := Memory.wfFrom_write hm (Nat.zero_le _) a.isLt v

/-- Canonical memories that read alike are the same data. -/
theorem Memory.eq_of_read_eq {lo : Nat} {m m' : Memory} (hm : Memory.wfFrom lo m = true)
    (hm' : Memory.wfFrom lo m' = true) (h : ∀ a, Memory.read m a = Memory.read m' a) : m = m' := by
  induction m generalizing lo m' with
  | nil =>
    cases m' with
    | nil => rfl
    | cons e m' =>
      obtain ⟨k, v⟩ := e
      have hk := h k
      simp only [Memory.read, if_true] at hk
      exact absurd hk.symm ((Memory.wfFrom_cons ..).1 hm').2.2.1
  | cons e m ih =>
    obtain ⟨k, v⟩ := e
    have h1 := (Memory.wfFrom_cons ..).1 hm
    cases m' with
    | nil =>
      have hk := h k
      simp only [Memory.read, if_true] at hk
      exact absurd hk h1.2.2.1
    | cons e' m' =>
      obtain ⟨k', v'⟩ := e'
      have h2 := (Memory.wfFrom_cons ..).1 hm'
      have hk : k = k' := by
        rcases Nat.lt_trichotomy k k' with hlt | heq | hgt
        · have := h k
          simp only [Memory.read, if_true, show k' ≠ k by omega, if_false,
            Memory.read_below (a := k) h2.2.2.2 (by omega)] at this
          exact absurd this h1.2.2.1
        · exact heq
        · have := h k'
          simp only [Memory.read, if_true, show k ≠ k' by omega, if_false,
            Memory.read_below (a := k') h1.2.2.2 (by omega)] at this
          exact absurd this.symm h2.2.2.1
      subst hk
      have hv : v = v' := by simpa [Memory.read] using h k
      subst hv
      congr 1
      refine ih h1.2.2.2 h2.2.2.2 fun a => ?_
      by_cases ha : k = a
      · rw [Memory.read_below h1.2.2.2 (by omega), Memory.read_below h2.2.2.2 (by omega)]
      · simpa [Memory.read, ha] using h a

/-! ### The same laws through a state -/

theorem State.loadWord_storeWord_same {s : State} (hm : Memory.wf s.mem = true) (a : Fin 256) (v : Word) :
    (s.storeWord a v).loadWord a = v := Memory.read_write_same hm a v

theorem State.loadWord_storeWord_other (s : State) {a b : Fin 256} (v : Word) (h : b ≠ a) :
    (s.storeWord a v).loadWord b = s.loadWord b :=
  Memory.read_write_other s.mem v fun e => h (Fin.ext e)

theorem State.wf_storeWord {s : State} (hm : Memory.wf s.mem = true) (a : Fin 256) (v : Word) :
    Memory.wf (s.storeWord a v).mem = true := Memory.wf_write hm a v

theorem State.reset_mem_wf : Memory.wf State.reset.mem = true := rfl

end Sys2Proof.Machine
end

