-- ==== Sys2Proof/Laws/Operands.lean ====
section
/-! SUPPORT. What each operand form can do, and what each shared shape of an instruction can do. -/

namespace Sys2Proof.Machine

theorem withRegister_of_lt {f : BitVec 8} (h : f.toNat < 8) (s : State) (body : Fin 8 → State) :
    withRegister f s body = body ⟨f.toNat, h⟩ := by simp [withRegister, h]

theorem withRegister_of_ge {f : BitVec 8} (h : 8 ≤ f.toNat) (s : State) (body : Fin 8 → State) :
    withRegister f s body = s.raiseIndexFault .register f.toNat := by
  simp [withRegister, Nat.not_lt.2 h]

theorem withRegister_of_eq {f : BitVec 8} {r : Fin 8} (h : f.toNat = r) (s : State) (body : Fin 8 → State) :
    withRegister f s body = body r := by
  have hlt : f.toNat < 8 := h ▸ r.isLt
  rw [withRegister_of_lt hlt]
  congr 1
  exact Fin.ext h

/-- A register field names a register, or the step is an index fault of that field. -/
theorem withRegister_cases (f : BitVec 8) (s : State) (body : Fin 8 → State) :
    (∃ r : Fin 8, f.toNat = r ∧ withRegister f s body = body r) ∨
      (8 ≤ f.toNat ∧ withRegister f s body = s.raiseIndexFault .register f.toNat) := by
  by_cases h : f.toNat < 8
  · exact .inl ⟨⟨f.toNat, h⟩, rfl, withRegister_of_lt h s body⟩
  · exact .inr ⟨Nat.not_lt.1 h, withRegister_of_ge (Nat.not_lt.1 h) s body⟩

theorem withAddress_of_lt {f : BitVec 16} (h : f.toNat < 256) (s : State) (body : Fin 256 → State) :
    withAddress f s body = body ⟨f.toNat, h⟩ := by simp [withAddress, h]

theorem withAddress_of_ge {f : BitVec 16} (h : 256 ≤ f.toNat) (s : State) (body : Fin 256 → State) :
    withAddress f s body = s.raiseIndexFault .memory f.toNat := by
  simp [withAddress, Nat.not_lt.2 h]

theorem withAddress_of_eq {f : BitVec 16} {a : Fin 256} (h : f.toNat = a) (s : State) (body : Fin 256 → State) :
    withAddress f s body = body a := by
  have hlt : f.toNat < 256 := h ▸ a.isLt
  rw [withAddress_of_lt hlt]
  congr 1
  exact Fin.ext h

/-- An address field names a cell, or the step is an index fault of that field. -/
theorem withAddress_cases (f : BitVec 16) (s : State) (body : Fin 256 → State) :
    (∃ a : Fin 256, f.toNat = a ∧ withAddress f s body = body a) ∨
      (256 ≤ f.toNat ∧ withAddress f s body = s.raiseIndexFault .memory f.toNat) := by
  by_cases h : f.toNat < 256
  · exact .inl ⟨⟨f.toNat, h⟩, rfl, withAddress_of_lt h s body⟩
  · exact .inr ⟨Nat.not_lt.1 h, withAddress_of_ge (Nat.not_lt.1 h) s body⟩

theorem State.resolve_register (s : State) {c : BitVec 16} {r : Fin 8} (h : c.toNat = r) :
    s.resolve c = s.readReg r := by
  have hlt : c.toNat < 8 := h ▸ r.isLt
  simp only [State.resolve, hlt, dif_pos]
  congr 1
  exact Fin.ext h

theorem State.resolve_literal (s : State) {c : BitVec 16} (h : 8 ≤ c.toNat) : s.resolve c = c.setWidth 32 := by
  simp [State.resolve, Nat.not_lt.2 h]

@[simp] theorem State.resolve_withFlags (s : State) (f : Flags) (c : BitVec 16) :
    (s.withFlags f).resolve c = s.resolve c := rfl

/-- The one successful form of the six three-operand ALU instructions, or a fault of A, or of B. -/
theorem withAluOperands_cases (a b : BitVec 8) (c : BitVec 16) (s : State) (body : Fin 8 → Word → Word → State) :
    (∃ rd rs : Fin 8, a.toNat = rd ∧ b.toNat = rs ∧
        withAluOperands a b c s body = body rd (s.readReg rs) (s.resolve c)) ∨
      (8 ≤ a.toNat ∧ withAluOperands a b c s body = s.raiseIndexFault .register a.toNat) ∨
      (8 ≤ b.toNat ∧ withAluOperands a b c s body = s.raiseIndexFault .register b.toNat) := by
  unfold withAluOperands
  obtain ⟨rd, ha, h⟩ | ⟨ha, h⟩ := withRegister_cases a s
    fun rd => withRegister b s fun rs => body rd (s.readReg rs) (s.resolve c)
  · obtain ⟨rs, hb, h'⟩ | ⟨hb, h'⟩ := withRegister_cases b s fun rs => body rd (s.readReg rs) (s.resolve c)
    · exact .inl ⟨rd, rs, ha, hb, h.trans h'⟩
    · exact .inr (.inr ⟨hb, h.trans h'⟩)
  · exact .inr (.inl ⟨ha, h⟩)

theorem withAluOperands_of_eq {a b : BitVec 8} {rd rs : Fin 8} (ha : a.toNat = rd) (hb : b.toNat = rs)
    (c : BitVec 16) (s : State) (body : Fin 8 → Word → Word → State) :
    withAluOperands a b c s body = body rd (s.readReg rs) (s.resolve c) := by
  rw [withAluOperands, withRegister_of_eq ha, withRegister_of_eq hb]

/-- A conditional jump retires at its target or at `pc + 1`, or is a fault of A, or of B. -/
theorem conditionalJump_cases (taken : Word → Word → Bool) (a b : BitVec 8) (c : BitVec 16) (s : State) :
    (∃ ra rb : Fin 8, a.toNat = ra ∧ b.toNat = rb ∧ conditionalJump taken a b c s =
        s.retire (if taken (s.readReg ra) (s.readReg rb) then jumpTarget c else s.nextPc)) ∨
      (8 ≤ a.toNat ∧ conditionalJump taken a b c s = s.raiseIndexFault .register a.toNat) ∨
      (8 ≤ b.toNat ∧ conditionalJump taken a b c s = s.raiseIndexFault .register b.toNat) := by
  unfold conditionalJump
  obtain ⟨ra, ha, h⟩ | ⟨ha, h⟩ := withRegister_cases a s
    fun ra => withRegister b s fun rb =>
      s.retire (if taken (s.readReg ra) (s.readReg rb) then jumpTarget c else s.nextPc)
  · obtain ⟨rb, hb, h'⟩ | ⟨hb, h'⟩ := withRegister_cases b s
      fun rb => s.retire (if taken (s.readReg ra) (s.readReg rb) then jumpTarget c else s.nextPc)
    · exact .inl ⟨ra, rb, ha, hb, h.trans h'⟩
    · exact .inr (.inr ⟨hb, h.trans h'⟩)
  · exact .inr (.inl ⟨ha, h⟩)

theorem conditionalJump_of_eq {a b : BitVec 8} {ra rb : Fin 8} (ha : a.toNat = ra) (hb : b.toNat = rb)
    (taken : Word → Word → Bool) (c : BitVec 16) (s : State) :
    conditionalJump taken a b c s =
      s.retire (if taken (s.readReg ra) (s.readReg rb) then jumpTarget c else s.nextPc) := by
  rw [conditionalJump, withRegister_of_eq ha, withRegister_of_eq hb]

theorem jumpTarget_toNat (f : BitVec 16) : (jumpTarget f).toNat = f.toNat := by
  have := f.isLt
  unfold jumpTarget
  simp
  omega

/-- The clamped index of JMPR lies from 0 to the program's length, both included. -/
theorem clampedIndex_bounds (pc : Word) (offset : Int) (len : Nat) :
    0 ≤ clampedIndex pc offset len ∧ clampedIndex pc offset len ≤ len := by
  unfold clampedIndex
  dsimp only
  split <;> omega

/-- JMPR's increment after the clamp does not wrap for a program shorter than `2^32 - 1` words. -/
theorem relativeTarget_toNat (pc : Word) (offset : Int) {len : Nat} (h : len < 4294967295) :
    ((relativeTarget pc offset len).toNat : Int) = clampedIndex pc offset len + 1 := by
  have := clampedIndex_bounds pc offset len
  simp only [relativeTarget, trunc32, BitVec.toNat_ofInt]
  norm_num
  omega

end Sys2Proof.Machine
end

