-- ==== Sys2Proof/Laws/PerInstr.lean ====
section
/-! SUPPORT. The family `EncodedOpcode`: the opcode byte of an encoded instruction is the catalog's (30_encoding.md R62,
R69), one lemma per constructor. -/

namespace Sys2Proof.Laws.EncodedOpcode

/-- Bits 31:24 of an instruction's word are its opcode byte. -/
def Statement (i : Instr) : Prop := opcodeField (encode i) = i.opcode

theorem mov (x : BitVec 8) (imm16 : BitVec 16) : Statement (.mov x imm16) := opcodeField_encodeRI ..
theorem add (x y : BitVec 8) (z : BitVec 16) : Statement (.add x y z) := opcodeField_encodeR3 ..
theorem sub (x y : BitVec 8) (z : BitVec 16) : Statement (.sub x y z) := opcodeField_encodeR3 ..
theorem mul (x y : BitVec 8) (z : BitVec 16) : Statement (.mul x y z) := opcodeField_encodeR3 ..
theorem div (x y : BitVec 8) (z : BitVec 16) : Statement (.div x y z) := opcodeField_encodeR3 ..
theorem and (x y : BitVec 8) (z : BitVec 16) : Statement (.and x y z) := opcodeField_encodeR3 ..
theorem or (x y : BitVec 8) (z : BitVec 16) : Statement (.or x y z) := opcodeField_encodeR3 ..
theorem str (x : BitVec 8) (imm16 : BitVec 16) : Statement (.str x imm16) := opcodeField_encodeRI ..
theorem ld (x : BitVec 8) (imm16 : BitVec 16) : Statement (.ld x imm16) := opcodeField_encodeRI ..
theorem jmp (imm16 : BitVec 16) : Statement (.jmp imm16) := opcodeField_encodeJ ..
theorem jmpe (x y : BitVec 8) (z : BitVec 16) : Statement (.jmpe x y z) := opcodeField_encodeR3 ..
theorem jmpn (x y : BitVec 8) (z : BitVec 16) : Statement (.jmpn x y z) := opcodeField_encodeR3 ..
theorem jmpg (x y : BitVec 8) (z : BitVec 16) : Statement (.jmpg x y z) := opcodeField_encodeR3 ..
theorem jmpl (x y : BitVec 8) (z : BitVec 16) : Statement (.jmpl x y z) := opcodeField_encodeR3 ..
theorem jmpr (x : BitVec 8) : Statement (.jmpr x) := opcodeField_encodeR1 ..
theorem nop : Statement .nop := opcodeField_encodeN _

end Sys2Proof.Laws.EncodedOpcode
end

