-- ==== Sys2Proof/Laws/Step.lean ====
section
/-! SUPPORT. What one execution and one step can do: the inversion lemmas that invariants are derived from. -/

namespace Sys2Proof.Machine

/-! ### Status (40_sequencer.md R91) -/

theorem status_ready_iff (s : State) :
    status s = .ready ↔ s.fault = none ∧ s.pc.toNat < s.prog.length ∧ s.stepCount < s.params.stepBudget := by
  unfold status
  cases s.fault with
  | some f => simp
  | none => by_cases h : s.pc.toNat < s.prog.length <;> by_cases h' : s.stepCount < s.params.stepBudget <;>
      simp [ge_iff_le, ← Nat.not_lt, h, h']

theorem status_eq_ready_or_halted (s : State) : status s = .ready ∨ s.Halted := by
  unfold State.Halted
  cases status s with
  | ready => exact .inl rfl
  | halted c => exact .inr ⟨c, rfl⟩

theorem status_of_fault {s : State} {f : IndexFault} (h : s.fault = some f) : status s = .halted (.fault f) := by
  simp [status, h]

@[simp] theorem status_withFlags (s : State) (f : Flags) : status (s.withFlags f) = status s := rfl
@[simp] theorem status_haltedStep (s : State) : status (haltedStep s) = status s := rfl

/-- Ready means that the fetch is in range (R94). -/
theorem fetch_of_ready {s : State} (h : status s = .ready) : ∃ w, fetch s = some w :=
  ⟨_, List.getElem?_eq_getElem ((status_ready_iff s).1 h).2.1⟩

/-! ### One execution -/

/-- A successful execution writes registers, flags and memory, keeps a canonical memory canonical, and retires; any
other is an index fault that names a bad index. Nothing else of the state changes. -/
theorem exec_cases {i : Instr} {s t : State} (h : exec i s = .next t) :
    (∃ f : IndexFault, f.wf = true ∧ t = s.raiseIndexFault f.kind f.index) ∨
      ∃ regs flags mem npc, (Memory.wf s.mem = true → Memory.wf mem = true) ∧
        t = ({ s with regs := regs, flags := flags, mem := mem } : State).retire npc := by
  have badReg : ∀ {f : BitVec 8}, 8 ≤ f.toNat → ∃ g : IndexFault, g.wf = true ∧
      s.raiseIndexFault .register f.toNat = s.raiseIndexFault g.kind g.index := fun {f} hf =>
    ⟨⟨.register, f.toNat⟩, by have := f.isLt; simp [IndexFault.wf]; omega, rfl⟩
  have badAddr : ∀ {f : BitVec 16}, 256 ≤ f.toNat → ∃ g : IndexFault, g.wf = true ∧
      s.raiseIndexFault .memory f.toNat = s.raiseIndexFault g.kind g.index := fun {f} hf =>
    ⟨⟨.memory, f.toNat⟩, by have := f.isLt; simp [IndexFault.wf]; omega, rfl⟩
  have alu : ∀ {a b : BitVec 8} {c : BitVec 16} {body : Fin 8 → Word → Word → State},
      (∀ rd x y, ∃ regs flags mem npc, (Memory.wf s.mem = true → Memory.wf mem = true) ∧
        body rd x y = ({ s with regs := regs, flags := flags, mem := mem } : State).retire npc) →
      t = withAluOperands a b c s body →
      (∃ f : IndexFault, f.wf = true ∧ t = s.raiseIndexFault f.kind f.index) ∨
        ∃ regs flags mem npc, (Memory.wf s.mem = true → Memory.wf mem = true) ∧
          t = ({ s with regs := regs, flags := flags, mem := mem } : State).retire npc := by
    intro a b c body hb ht
    obtain ⟨rd, rs, -, -, e⟩ | ⟨hx, e⟩ | ⟨hx, e⟩ := withAluOperands_cases a b c s body
    · rw [ht, e]; exact .inr (hb _ _ _)
    · rw [ht, e]; exact .inl (badReg hx)
    · rw [ht, e]; exact .inl (badReg hx)
  have cond : ∀ {taken : Word → Word → Bool} {a b : BitVec 8} {c : BitVec 16}, t = conditionalJump taken a b c s →
      (∃ f : IndexFault, f.wf = true ∧ t = s.raiseIndexFault f.kind f.index) ∨
        ∃ regs flags mem npc, (Memory.wf s.mem = true → Memory.wf mem = true) ∧
          t = ({ s with regs := regs, flags := flags, mem := mem } : State).retire npc := by
    intro taken a b c ht
    obtain ⟨ra, rb, -, -, e⟩ | ⟨hx, e⟩ | ⟨hx, e⟩ := conditionalJump_cases taken a b c s
    · rw [ht, e]; exact .inr ⟨_, _, _, _, id, rfl⟩
    · rw [ht, e]; exact .inl (badReg hx)
    · rw [ht, e]; exact .inl (badReg hx)
  have result : ∀ rd r f, ∃ regs flags mem npc, (Memory.wf s.mem = true → Memory.wf mem = true) ∧
      s.writeResult rd r f = ({ s with regs := regs, flags := flags, mem := mem } : State).retire npc :=
    fun rd r f => ⟨_, _, _, _, id, rfl⟩
  cases i with
  | mov a imm16 =>
    obtain rfl : _ = t := Host.Outcome.next.inj h
    obtain ⟨r, -, e⟩ | ⟨hx, e⟩ := withRegister_cases a s
      fun rd => (s.writeReg rd (immediate imm16)).retire s.nextPc
    · rw [e]; exact .inr ⟨_, _, _, _, id, rfl⟩
    · rw [e]; exact .inl (badReg hx)
  | add a b c => exact alu (fun _ _ _ => result _ _ _) (Host.Outcome.next.inj h).symm
  | sub a b c => exact alu (fun _ _ _ => result _ _ _) (Host.Outcome.next.inj h).symm
  | mul a b c => exact alu (fun _ _ _ => result _ _ _) (Host.Outcome.next.inj h).symm
  | div a b c =>
    refine alu (fun rd x y => ?_) (Host.Outcome.next.inj h).symm
    split
    · exact ⟨_, _, _, _, id, rfl⟩
    · exact result _ _ _
  | and a b c => exact alu (fun _ _ _ => result _ _ _) (Host.Outcome.next.inj h).symm
  | or a b c => exact alu (fun _ _ _ => result _ _ _) (Host.Outcome.next.inj h).symm
  | str a imm16 =>
    obtain rfl : _ = t := Host.Outcome.next.inj h
    obtain ⟨r, -, e⟩ | ⟨hx, e⟩ := withRegister_cases a s fun rs => withAddress imm16 s fun addr =>
      ((s.storeWord addr (s.readReg rs)).setFlags Flags.allFalse).retire s.nextPc
    · rw [e]
      obtain ⟨addr, -, e'⟩ | ⟨hx, e'⟩ := withAddress_cases imm16 s fun addr =>
        ((s.storeWord addr (s.readReg r)).setFlags Flags.allFalse).retire s.nextPc
      · rw [e']; exact .inr ⟨_, _, _, _, fun hm => Memory.wf_write hm addr _, rfl⟩
      · rw [e']; exact .inl (badAddr hx)
    · rw [e]; exact .inl (badReg hx)
  | ld a imm16 =>
    obtain rfl : _ = t := Host.Outcome.next.inj h
    obtain ⟨r, -, e⟩ | ⟨hx, e⟩ := withRegister_cases a s fun rd => withAddress imm16 s fun addr =>
      (s.writeReg rd (s.loadWord addr)).retire s.nextPc
    · rw [e]
      obtain ⟨addr, -, e'⟩ | ⟨hx, e'⟩ := withAddress_cases imm16 s fun addr =>
        (s.writeReg r (s.loadWord addr)).retire s.nextPc
      · rw [e']; exact .inr ⟨_, _, _, _, id, rfl⟩
      · rw [e']; exact .inl (badAddr hx)
    · rw [e]; exact .inl (badReg hx)
  | jmp imm16 =>
    obtain rfl : _ = t := Host.Outcome.next.inj h
    exact .inr ⟨_, _, _, _, id, rfl⟩
  | jmpe a b c => exact cond (Host.Outcome.next.inj h).symm
  | jmpn a b c => exact cond (Host.Outcome.next.inj h).symm
  | jmpg a b c => exact cond (Host.Outcome.next.inj h).symm
  | jmpl a b c => exact cond (Host.Outcome.next.inj h).symm
  | jmpr a =>
    obtain rfl : _ = t := Host.Outcome.next.inj h
    obtain ⟨r, -, e⟩ | ⟨hx, e⟩ := withRegister_cases a s
      fun ra => s.retire (relativeTarget s.pc (s32 (s.readReg ra)) s.prog.length)
    · rw [e]; exact .inr ⟨_, _, _, _, id, rfl⟩
    · rw [e]; exact .inl (badReg hx)
  | nop =>
    obtain rfl : _ = t := Host.Outcome.next.inj h
    exact .inr ⟨_, _, _, _, id, rfl⟩

/-- Every meaning answers a next state. -/
theorem exec_next (i : Instr) (s : State) : ∃ t, exec i s = .next t := by cases i <;> exact ⟨_, rfl⟩

/-! ### One step -/

theorem step_of_halted {s : State} {c : HaltCause} (h : status s = .halted c) : step s = .next (haltedStep s) := by
  simp [step, h]

theorem step_of_ready {s : State} {w : Word} (h : status s = .ready) (hw : fetch s = some w) :
    step s = execDecoded (decode s.params.legacyOverlap w) s := by
  simp [step, readyStep, h, hw]

/-- A step clears the flags of a halted core, passes an undefined opcode, or executes the decoded instruction. -/
theorem step_cases {s t : State} (h : step s = .next t) :
    (s.Halted ∧ t = haltedStep s) ∨
      ∃ w, status s = .ready ∧ fetch s = some w ∧
        ((∃ op, decode s.params.legacyOverlap w = .undefined op ∧ t = undefinedOpcode s) ∨
          ∃ i, decode s.params.legacyOverlap w = .instr i ∧ exec i s = .next t) := by
  obtain hr | ⟨c, hc⟩ := status_eq_ready_or_halted s
  · obtain ⟨w, hw⟩ := fetch_of_ready hr
    refine .inr ⟨w, hr, hw, ?_⟩
    rw [step_of_ready hr hw] at h
    cases hd : decode s.params.legacyOverlap w with
    | instr i => exact .inr ⟨i, rfl, by simpa [hd, execDecoded] using h⟩
    | undefined op => exact .inl ⟨op, rfl, by simpa [hd, execDecoded, eq_comm] using h⟩
  · rw [step_of_halted hc] at h
    exact .inl ⟨⟨c, hc⟩, (Host.Outcome.next.inj h).symm⟩

/-! ### Runs and host operations -/

@[simp] theorem run_zero (s : State) : run 0 s = .next s := rfl

theorem run_succ_of_step {s t : State} (k : Nat) (h : step s = .next t) : run (k + 1) s = run k t := by
  have h' : Sys2Proof.core.step s = .next t := h
  simp only [run, Host.Core.run]
  rw [h']

@[simp] theorem hostRun_nil (s : State) : hostRun [] s = .next s := rfl

theorem hostRun_cons_of_next {s t : State} {op : HostOp} (ops : List HostOp) (h : hostOp op s = .next t) :
    hostRun (op :: ops) s = hostRun ops t := by simp [hostRun, h]

end Sys2Proof.Machine
end

