-- ==== Sys2Proof/Tests/Slice0.lean ====
section
/-! SUPPORT. Tests. Expected values come from spec/: the words are written out from 30_encoding.md R57, R62 and R85, the
results from the vectors of 95_test_vectors.md (their ids stand in the comments). -/

namespace Sys2Proof.Tests
open Sys2Proof Sys2Proof.Machine

/-! ## Well-formedness: each check refuses an ill-formed term -/

theorem test_wf_default_refuses_wide_c : (Instr.add 1#8 2#8 256#16).wellFormed false = false := by decide
theorem test_wf_default_takes_byte_c : (Instr.jmpl 1#8 2#8 255#16).wellFormed false = true := by decide
theorem test_wf_legacy_refuses_other_b : (Instr.jmpe 1#8 2#8 0x0303#16).wellFormed true = false := by decide
theorem test_wf_legacy_takes_same_b : (Instr.jmpe 1#8 2#8 0x02FF#16).wellFormed true = true := by decide

/-! ## Decode: one word for every constructor, and the vectors D-1 to D-14 -/

theorem test_decode_mov : decode false 0x010303E8#32 = .instr (.mov 3#8 1000#16) := by decide
theorem test_decode_add : decode false 0x02010203#32 = .instr (.add 1#8 2#8 3#16) := by decide
theorem test_decode_add_legacy : decode true 0x02010203#32 = .instr (.add 1#8 2#8 0x0203#16) := by decide
theorem test_decode_sub : decode false 0x03040506#32 = .instr (.sub 4#8 5#8 6#16) := by decide
theorem test_decode_mul : decode false 0x04010210#32 = .instr (.mul 1#8 2#8 16#16) := by decide
theorem test_decode_div : decode false 0x05000102#32 = .instr (.div 0#8 1#8 2#16) := by decide
theorem test_decode_and : decode false 0x06010203#32 = .instr (.and 1#8 2#8 3#16) := by decide
theorem test_decode_or : decode false 0x070102FF#32 = .instr (.or 1#8 2#8 255#16) := by decide
theorem test_decode_str : decode false 0x08010100#32 = .instr (.str 1#8 256#16) := by decide
theorem test_decode_ld : decode false 0x09020010#32 = .instr (.ld 2#8 16#16) := by decide
theorem test_decode_jmp : decode false 0x0A123456#32 = .instr (.jmp 0x3456#16) := by decide
theorem test_decode_jmpe : decode false 0x0B0102FF#32 = .instr (.jmpe 1#8 2#8 255#16) := by decide
theorem test_decode_jmpe_legacy : decode true 0x0B0102FF#32 = .instr (.jmpe 1#8 2#8 767#16) := by decide
theorem test_decode_jmpn : decode false 0x0C010003#32 = .instr (.jmpn 1#8 0#8 3#16) := by decide
theorem test_decode_jmpg : decode false 0x0D030108#32 = .instr (.jmpg 3#8 1#8 8#16) := by decide
theorem test_decode_jmpl : decode false 0x0E070605#32 = .instr (.jmpl 7#8 6#8 5#16) := by decide
theorem test_decode_jmpr : decode false 0x0F07FFFF#32 = .instr (.jmpr 7#8) := by decide
theorem test_decode_nop : decode false 0xFFABCDEF#32 = .instr .nop := by decide
theorem test_decode_undefined : decode false 0x00000000#32 = .undefined 0x00#8 ∧
    decode false 0x10000000#32 = .undefined 0x10#8 ∧ decode false 0xFE000000#32 = .undefined 0xFE#8 := by decide
theorem test_encode_examples : encode (.jmpg 3#8 1#8 8#16) = 0x0D030108#32 ∧ encode (.str 1#8 16#16) = 0x08010010#32 ∧
    encode (.jmp 3#16) = 0x0A000003#32 ∧ encode (.jmpr 4#8) = 0x0F040000#32 ∧ encode .nop = 0xFF000000#32 := by decide
theorem test_decodeTableWord : decodeTableWord 32 0x02010203 = some (.add 1#8 2#8 3#16) ∧
    decodeTableWord 32 0x10FFFFFF = none := by decide

/-! ## One step on a small state -/

/-- A default engine with this program and these registers set. -/
def engine (words : List Word) (rs : List (Fin 8 × Word)) : State :=
  rs.foldl (fun s e => s.writeReg e.1 e.2) (construct Params.default words)

/-- What a test reads after one step. -/
def after (s : State) {α : Type} (get : State → α) : Option α :=
  match step s with
  | .next t => some (get t)
  | .fault _ => none
  | .refused _ => none

/-- Register 1 and the flags Z, N, C, V. -/
def result (s : State) : Option (Word × Flags) := after s fun t => (t.readReg 1, t.flags)

/-- The pc after one step of a word at index `p` of a program of 12 words. -/
def jumpFrom (w : Word) (p : Nat) (rs : List (Fin 8 × Word)) : Option Word :=
  after ((engine ((List.replicate 12 0xFF000000#32).set p w) rs).setProgramCounter (BitVec.ofNat 32 p)) fun t => t.pc

-- MOV-2, MOV-3
theorem test_mov_unsigned : after (engine [0x0107FFFF#32] []) (fun t => t.readReg 7) = some 0x0000FFFF#32 := by decide
theorem test_mov_fault : after (engine [0x01080001#32] []) (fun t => (t.fault, t.pc, t.stepCount, status t)) =
    some (some ⟨.register, 8⟩, 0#32, 0, .halted (.fault ⟨.register, 8⟩)) := by decide
-- ADD-2, ADD-11
theorem test_add_overflow : result (engine [0x02010203#32] [(2, 0x7FFFFFFF#32), (3, 1#32)]) =
    some (0x80000000#32, ⟨false, true, true, true⟩) := by decide
theorem test_add_low_literal_is_register : result (engine [0x02010205#32] [(2, 1#32), (5, 40#32)]) =
    some (41#32, ⟨false, false, false, false⟩) := by decide
-- SUB-4, SUB-6
theorem test_sub_wraps : result (engine [0x03010203#32] [(2, 0x80000000#32), (3, 1#32)]) =
    some (0x7FFFFFFF#32, ⟨false, false, true, true⟩) := by decide
theorem test_sub_signed_carry : result (engine [0x03010203#32] [(2, 0xFFFFFFFF#32), (3, 1#32)]) =
    some (0xFFFFFFFE#32, ⟨false, true, true, false⟩) := by decide
-- MUL-3, MUL-7
theorem test_mul_corner : result (engine [0x04010203#32] [(2, 0xFFFFFFFF#32), (3, 0x80000000#32)]) =
    some (0x80000000#32, ⟨false, true, true, false⟩) := by decide
theorem test_mul_out_of_range : result (engine [0x04010203#32] [(2, 46341#32), (3, 46341#32)]) =
    some (0x80001219#32, ⟨false, true, true, true⟩) := by decide
-- DIV-2, DIV-16
theorem test_div_toward_zero : result (engine [0x05010203#32] [(2, 0xFFFFFFF9#32), (3, 2#32)]) =
    some (0xFFFFFFFD#32, ⟨false, true, false, false⟩) := by decide
theorem test_div_checks_before_divisor : after (engine [0x05092000#32] []) (fun t => t.fault) =
    some (some ⟨.register, 9⟩) := by decide
-- LOG-2, LOG-4
theorem test_and_keeps_z_false : result (engine [0x06010203#32] [(2, 0xFF00FF00#32), (3, 0x00FF00FF#32)]) =
    some (0#32, ⟨false, false, false, false⟩) := by decide
theorem test_or_keeps_n_false : result (engine [0x07010203#32] [(2, 0x80000000#32)]) =
    some (0x80000000#32, ⟨false, false, false, false⟩) := by decide
-- LS-1, LS-4
theorem test_str : after ((engine [0x08010010#32] [(1, 0xFFFFFFFB#32)]).setFlags ⟨false, true, true, true⟩)
    (fun t => (t.mem, t.flags)) = some ([(16, 0xFFFFFFFB#32)], ⟨false, false, false, false⟩) := by decide
theorem test_str_bad_address : after (engine [0x08010100#32] [(1, 7#32)]) (fun t => (t.mem, t.fault)) =
    some ([], some ⟨.memory, 256⟩) := by decide
-- LS-2, LS-6
theorem test_ld : after ((engine [0x09020010#32] []).storeWord 16 0xFFFFFFFB#32) (fun t => (t.readReg 2, t.flags)) =
    some (0xFFFFFFFB#32, ⟨false, false, false, false⟩) := by decide
theorem test_ld_register_check_first : after (engine [0x09090100#32] []) (fun t => t.fault) =
    some (some ⟨.register, 9⟩) := by decide
-- BR-3, BR-4, BR-5 with another target, BR-7, BR-8, BR-9, BR-10, BR-11, BR-12
theorem test_jmp : jumpFrom 0x0A0000C8#32 0 [] = some 200#32 := by decide
theorem test_jmpe : jumpFrom 0x0B010209#32 4 [(1, 7#32), (2, 7#32)] = some 9#32 ∧
    jumpFrom 0x0B010209#32 4 [(1, 7#32), (2, 8#32)] = some 5#32 := by decide
theorem test_jmpn : jumpFrom 0x0C010003#32 5 [(1, 4#32)] = some 3#32 ∧
    jumpFrom 0x0C010103#32 5 [(1, 4#32)] = some 6#32 := by decide
theorem test_jmpg_signed : jumpFrom 0x0D010200#32 3 [(1, 0xFFFFFFFF#32), (2, 1#32)] = some 4#32 ∧
    jumpFrom 0x0D010200#32 3 [(2, 0x80000000#32)] = some 0#32 := by decide
theorem test_jmpl_signed : jumpFrom 0x0E010200#32 3 [(1, 0xFFFFFFFF#32), (2, 1#32)] = some 0#32 ∧
    jumpFrom 0x0E010200#32 3 [(1, 0x7FFFFFFF#32), (2, 0x80000000#32)] = some 4#32 := by decide
-- BR-14, BR-17, BR-18, BR-20
theorem test_jmpr_inside : jumpFrom 0x0F010000#32 1 [(1, 3#32)] = some 5#32 ∧
    jumpFrom 0x0F010000#32 11 [] = some 12#32 := by decide
theorem test_jmpr_clamped : jumpFrom 0x0F010000#32 0 [(1, 0xFFFFFFFF#32)] = some 13#32 ∧
    jumpFrom 0x0F010000#32 4 [(1, 8#32)] = some 13#32 := by decide
-- NI-1
theorem test_nop : jumpFrom 0xFF000000#32 11 [] = some 12#32 := by decide
-- NI-4
theorem test_undefined : (stepReport (engine [0x10FFFFFF#32] [])).map (·.cond) = some (.invalidOpcode 0x10#8) ∧
    after (engine [0x10FFFFFF#32] []) (fun t => (t.pc, t.stepCount)) = some (1#32, 1) := by decide
-- SQ-5, its second call
theorem test_halted_step_clears_flags :
    after ((engine [0x04010203#32] []).setProgramCounter 1#32 |>.setFlags ⟨true, false, true, true⟩)
      (fun t => (t.flags, t.pc)) = some (⟨false, false, false, false⟩, 1#32) := by decide
-- E3 under the legacy layout
theorem test_add_legacy_literal :
    after ((construct ⟨1000, 8, true⟩ [0x02010203#32]).writeReg 2 5#32) (fun t => t.readReg 1) = some 520#32 := by decide
theorem test_withFetchWord_runs_first :
    after (State.reset.withFetchWord 32 0x0107FFFF) (fun t => (t.readReg 7, t.pc)) = some (0x0000FFFF#32, 1#32) := by
  decide

/-! ## The assembler -/

-- A-3, A-2, A-9, A-13, A-18, A-20, A-22, A-24, A-26, A-32
theorem test_assemble_spaces : assemble false "  ADD   r1 r2 r3  ".toList = .ok 0x02010203#32 := by decide
theorem test_assemble_hex : assemble false "mov r0 0XA".toList = .ok 0x0100000A#32 := by decide
theorem test_assemble_wide_literal : assemble false "mov r0 #70000".toList = .error .invalidImmediate := by decide
theorem test_assemble_mixed_base : assemble false "mov r0 #0x10".toList = .error .invalidImmediate := by decide
theorem test_assemble_comma : assemble false "add r1, r2, r3".toList = .error .invalidRegister := by decide
theorem test_assemble_legacy : assemble true "add r1 r2 #300".toList = .ok 0x0201032C#32 := by decide
theorem test_assemble_r9 : assemble false "add r1 r2 r9".toList = .error .invalidImmediate := by decide
theorem test_assemble_mnemonic_first : assemble false "foo".toList = .error .unknownMnemonic := by decide
theorem test_assemble_empty : assemble false "   ".toList = .error .malformedInstruction := by decide
theorem test_assemble_count : assemble false "nop r1".toList = .error .malformedInstruction := by decide

/-! ## Witnesses: the hypotheses of each statement are met together -/


theorem witness_DecodeOfEncodeIsTheInstruction : (Instr.add 1#8 2#8 255#16).wellFormed false = true ∧
    (Instr.add 1#8 2#8 0x0203#16).wellFormed true = true := by decide
theorem witness_DecodedInstructionReencodesToItsUsedBits :
    decode false 0x0A123456#32 = .instr (.jmp 0x3456#16) ∧
    decode true 0x02010203#32 = .instr (.add 1#8 2#8 0x0203#16) := by decide
theorem witness_LegacyThirdOperandContainsFieldB : (fieldC true 0x02010007#32).toNat < 8 := by decide
theorem witness_ThirdOperandBelowEightIsARegister : (7#16).toNat = (7 : Fin 8) ∧ 8 ≤ (8#16).toNat := by decide
theorem witness_AssembledRegisterLineDecodesToItsRegisters :
    catalogLookup "jmpl".toList = some (0x0E#8, .r3) := by decide
theorem witness_AssembledTextIsOneInstructionPerLine :
    assembleAll false ["nop".toList, "jmp 3".toList] = some [0xFF000000#32, 0x0A000003#32] := by decide
theorem witness_ReadyStepRunsTheDecodedInstruction :
    ((engine [0x02010203#32] []).ReadyWith 0x02010203#32 ∧
      decode (engine [0x02010203#32] []).params.legacyOverlap 0x02010203#32 = .instr (.add 1#8 2#8 3#16) ∧
      indexCheck (.add 1#8 2#8 3#16) = none) ∧
    ((engine [0x02080203#32] []).ReadyWith 0x02080203#32 ∧
      decode (engine [0x02080203#32] []).params.legacyOverlap 0x02080203#32 = .instr (.add 8#8 2#8 3#16) ∧
      indexCheck (.add 8#8 2#8 3#16) = some ⟨.register, 8⟩) := by
  unfold State.ReadyWith; decide
theorem witness_UndefinedOpcodeIsReportedAndPassed :
    ((engine [0#32] []).ReadyWith 0#32 ∧ (opcodeField 0#32).toNat = 0) ∧
    ((engine [0x10000000#32] []).ReadyWith 0x10000000#32 ∧ 16 ≤ (opcodeField 0x10000000#32).toNat ∧
      (opcodeField 0x10000000#32).toNat ≤ 254) ∧
    ((engine [0xFE000000#32] []).ReadyWith 0xFE000000#32 ∧ (opcodeField 0xFE000000#32).toNat = 254) := by
  unfold State.ReadyWith; decide
theorem witness_HaltCausesHaveAFixedPrecedence :
    ((State.reset.raiseIndexFault .memory 256).fault = some ⟨.memory, 256⟩) ∧
    (State.reset.fault = none ∧ State.reset.prog.length ≤ State.reset.pc.toNat) ∧
    (∃ s : State, s = construct ⟨0, 8, false⟩ [0#32] ∧ s.fault = none ∧ s.pc.toNat < s.prog.length ∧
      s.params.stepBudget ≤ s.stepCount) ∧
    (∃ s : State, s = construct ⟨1, 8, false⟩ [0#32] ∧ s.fault = none ∧ s.pc.toNat < s.prog.length ∧
      s.stepCount < s.params.stepBudget) := by
  refine ⟨by decide, by decide, ⟨_, rfl, by decide⟩, ⟨_, rfl, by decide⟩⟩
theorem witness_HaltedCoreOnlyClearsItsFlags : status State.reset = .halted .programEnd := by decide
theorem witness_EveryStepAnswersAndReportsItsCondition :
    (stepCondition (engine [0xFF000000#32] [])).code = 0 ∧ (stepCondition State.reset).code = 1 ∧
    (stepCondition (construct ⟨0, 8, false⟩ [0#32])).code = 2 ∧ (stepCondition (engine [0#32] [])).code = 3 ∧
    (stepCondition (engine [0x01080001#32] [])).code = 4 ∧ (stepCondition (engine [0x08010100#32] [])).code = 5 := by
  decide
theorem reset_inv : State.reset.Inv := ⟨by decide, by decide, by decide, by decide, by simp [State.reset]⟩
theorem engine_inv : (engine [0xFF000000#32] []).Inv :=
  ⟨by decide, by decide, by decide, by decide, by simp [engine, construct, State.reset]⟩
theorem witness_EveryStepKeepsTheInvariant :
    (engine [0xFF000000#32] []).Inv ∧ ∃ t, step (engine [0xFF000000#32] []) = .next t ∧ t.stepCount = 1 :=
  ⟨engine_inv, _, rfl, rfl⟩
theorem witness_ConstructedEngineSatisfiesTheInvariant : Params.default.capacityOk = true := by decide
theorem witness_ProgramCounterNeverWraps :
    (engine [0xFF000000#32] []).Inv ∧ (engine [0xFF000000#32] []).ReadyWith 0xFF000000#32 ∧
    ∃ t, step (engine [0xFF000000#32] []) = .next t ∧ t.fault = none ∧
      decode (engine [0xFF000000#32] []).params.legacyOverlap 0xFF000000#32 = .instr .nop ∧ isJump .nop = false :=
  ⟨engine_inv, by unfold State.ReadyWith; decide, _, rfl, rfl, rfl, rfl⟩
theorem witness_ExecutionWritesAtMostOneRegisterOrCell :
    (∃ t, exec (.mov 7#8 5#16) State.reset = .next t ∧ destinationField (.mov 7#8 5#16) = some 7#8 ∧
      t.readReg 7 = 5#32 ∧ t.readReg 6 = 0#32) ∧
    (∃ t, exec (.str 7#8 255#16) (State.reset.writeReg 7 5#32) = .next t ∧
      Memory.read t.mem 255 = 5#32 ∧ Memory.read t.mem 254 = 0#32) ∧
    (∃ t, exec (.ld 8#8 0#16) State.reset = .next t ∧ ∀ a imm16, Instr.ld 8#8 0#16 ≠ .str a imm16) :=
  ⟨⟨_, rfl, by decide, by decide, by decide⟩, ⟨_, rfl, by decide, by decide⟩, ⟨_, rfl, fun _ _ => by simp⟩⟩
theorem witness_MovWritesTheZeroExtendedImmediate :
    opcodeField 0x0107FFFF#32 = 0x01#8 ∧ (7#8).toNat = (7 : Fin 8) ∧ 7 < (8#8).toNat := by decide
theorem witness_AddWritesTheWrappedSumAndItsFlags : (1#8).toNat = (1 : Fin 8) ∧ (2#8).toNat = (2 : Fin 8) := by decide
theorem witness_SubWritesTheWrappedDifferenceAndItsFlags :
    (4#8).toNat = (4 : Fin 8) ∧ (5#8).toNat = (5 : Fin 8) ∧
    (State.reset.readReg 5).msb = (State.reset.resolve 6#16).msb := by decide
theorem witness_MulWritesTheLowProductAndItsFlags : (1#8).toNat = (1 : Fin 8) ∧ (2#8).toNat = (2 : Fin 8) ∧
    ¬ ((State.reset.readReg 2).toInt = -1 ∧ (State.reset.resolve 16#16).toInt = -2147483648) := by decide
theorem witness_DivWritesTheQuotientTowardZero :
    (0#8).toNat = (0 : Fin 8) ∧ (1#8).toNat = (1 : Fin 8) ∧
    (State.reset.writeReg 1 0xFFFFFFF9#32).resolve 8#16 ≠ 0#32 ∧
    ¬ (((State.reset.writeReg 1 0xFFFFFFF9#32).readReg 1).toInt = -2147483648 ∧
      ((State.reset.writeReg 1 0xFFFFFFF9#32).resolve 8#16).toInt = -1) := by decide
theorem witness_DivisionByZeroIsASilentNoOp :
    (engine [0x05000102#32] []).ReadyWith 0x05000102#32 ∧
    decode (engine [0x05000102#32] []).params.legacyOverlap 0x05000102#32 = .instr (.div 0#8 1#8 2#16) ∧
    (0#8).toNat = (0 : Fin 8) ∧ (1#8).toNat = (1 : Fin 8) ∧ (engine [0x05000102#32] []).resolve 2#16 = 0#32 := by
  unfold State.ReadyWith; decide
theorem witness_DecidedCornersOfTheAlu :
    ∃ s : State, s = engine [] [(2, 0x80000000#32), (3, 0xFFFFFFFF#32)] ∧ (1#8).toNat = (1 : Fin 8) ∧
      s.readReg 2 = 0x80000000#32 ∧ s.resolve 3#16 = 0xFFFFFFFF#32 ∧
      s.readReg 3 = 0xFFFFFFFF#32 ∧ s.resolve 2#16 = 0x80000000#32 := ⟨_, rfl, by decide⟩
theorem witness_AndOrAreBitwiseAndClearTheFlags : (1#8).toNat = (1 : Fin 8) ∧ (2#8).toNat = (2 : Fin 8) := by decide
theorem witness_OverflowFlagsMeanResultOutOfRange : (addFlags 0x7FFFFFFF#32 1#32).c = true := by decide
theorem witness_StrStoresTheRegisterAndClearsTheFlags :
    (7#8).toNat = (7 : Fin 8) ∧ (255#16).toNat < 256 ∧ Memory.wf State.reset.mem = true := by decide
theorem witness_LdLoadsTheCellAndKeepsTheFlags : (7#8).toNat = (7 : Fin 8) ∧ (255#16).toNat < 256 := by decide
theorem witness_OnlyLoadAndStoreAccessDataMemory :
    (usesDataMemory .nop = false ∧ ∃ t, exec .nop State.reset = .next t) ∧ (0#8).toNat = (0 : Fin 8) ∧
    (255#16).toNat < 256 ∧ Memory.wf State.reset.mem = true := ⟨⟨rfl, _, rfl⟩, by decide⟩
theorem witness_CellChangesOnlyByAStoreToIt :
    Memory.wf (engine [0x080100FF#32] [(1, 77#32)]).mem = true ∧
    ∃ t, step (engine [0x080100FF#32] [(1, 77#32)]) = .next t ∧
      Memory.read t.mem 255 ≠ Memory.read (engine [0x080100FF#32] [(1, 77#32)]).mem 255 := by
  refine ⟨by decide, _, rfl, by decide⟩
theorem witness_ConditionalJumpsCompareTwoRegisters :
    (3#8).toNat = (3 : Fin 8) ∧ (1#8).toNat = (1 : Fin 8) ∧ (5#32 : Word) =
      if (State.reset.readReg 3).toInt = (State.reset.readReg 1).toInt then (5#16).setWidth 32
      else State.reset.pc + 1#32 := by decide
theorem witness_JmprGoesOnePastTheClampedSum :
    ∃ s : State, s = engine [0x0F010000#32, 0#32] [(1, 1#32), (2, 2#32)] ∧ (1#8).toNat = (1 : Fin 8) ∧
      s.prog.length < 4294967295 ∧
      (0 ≤ (s.pc.toNat : Int) + (s.readReg 1).toInt ∧ (s.pc.toNat : Int) + (s.readReg 1).toInt < s.prog.length) ∧
      (s.prog.length : Int) ≤ (s.pc.toNat : Int) + (s.readReg 2).toInt := ⟨_, rfl, by decide⟩
theorem witness_JmprReachesEveryIndexButZero :
    ∃ s : State, s = engine [0x0F010000#32, 0#32] [] ∧ (1#8).toNat = (1 : Fin 8) ∧ s.pc.toNat < s.prog.length ∧
      s.prog.length ≤ 2147483648 := ⟨_, rfl, by decide⟩
theorem witness_NoBranchReadsTheFlags : isJump (.jmp 3#16) = true ∧ ∃ t, exec (.jmp 3#16) State.reset = .next t :=
  ⟨rfl, _, rfl⟩
theorem witness_RunsIgnoreTheFlags :
    (engine [0#32] []).SameButFlags ((engine [0#32] []).withFlags ⟨true, true, true, true⟩) := rfl
theorem witness_FlagsChangeOnlyByTheirWriters :
    (∃ t, exec (.ld 1#8 255#16) State.reset = .next t) ∧ indexCheck (.str 1#8 255#16) = none ∧
    (∃ t, exec (.str 1#8 255#16) State.reset = .next t) ∧ indexCheck (.and 1#8 8#8 0#16) = some ⟨.register, 8⟩ ∧
    (∃ t, exec (.and 1#8 8#8 0#16) State.reset = .next t) := ⟨⟨_, rfl⟩, rfl, ⟨_, rfl⟩, rfl, ⟨_, rfl⟩⟩
theorem witness_FailedIndexCheckIsAPreciseFault : indexCheck (.ld 7#8 256#16) = some ⟨.memory, 256⟩ ∧
    indexCheck (.ld 7#8 255#16) = none := by decide
theorem witness_IndexFaultsComeInOperandOrder :
    7 < (8#8).toNat ∧ (7#8).toNat ≤ 7 ∧ 255 < (256#16).toNat := by decide
theorem witness_FaultIsStickyUntilReset :
    (State.reset.raiseIndexFault .register 8).fault = some ⟨.register, 8⟩ ∧
    ∀ op ∈ [HostOp.step, .setProgramCounter 1#32, .configureStepInterval 5], op ≠ .reset := by decide
theorem witness_ConstructionGivesTheResetValues :
    ∃ s, s = construct ⟨5, 1, false⟩ [0x0A000000#32, 0#32] ∧ s.prog = [0x0A000000#32] := ⟨_, rfl, by decide⟩
theorem witness_SetProgramCounterWritesOnlyThePc :
    ∃ s : State, s = engine [0#32] [] ∧ s.fault = none ∧ s.prog.length ≤ (1#32).toNat ∧
      (0#32).toNat < s.prog.length ∧ s.stepCount < s.params.stepBudget ∧
      (s.raiseIndexFault .memory 256).fault = some ⟨.memory, 256⟩ := ⟨_, rfl, by decide⟩
theorem witness_HostOperationsKeepTheInvariant :
    State.reset.Inv ∧ ∃ t, hostRun [.step, .reset, .setProgramCounter 3#32] State.reset = .next t :=
  ⟨reset_inv, _, rfl⟩

end Sys2Proof.Tests
end

section
/-! The load/store arbiter (20_memory.md R44): which instructions depend on data memory, and what LD and STR move. A next
state that ignores data memory is built from the shared shapes of the instructions, one rule for each shape. -/

namespace Sys2Proof.Machine

/-! ### Next states that ignore data memory -/

/-- `s` with other data memory. -/
def State.withMem (s : State) (m : Memory) : State := { s with mem := m }

/-- A next-state function that neither writes data memory nor depends on it. -/
def IgnoresMemory (next : State → State) : Prop :=
  ∀ (s : State) (m : Memory), (next s).mem = s.mem ∧ next (s.withMem m) = (next s).withMem m

theorem ignoresMemory_retire_nextPc : IgnoresMemory fun s => s.retire s.nextPc := fun _ _ => ⟨rfl, rfl⟩

theorem ignoresMemory_retire_at (npc : Word) : IgnoresMemory fun s => s.retire npc := fun _ _ => ⟨rfl, rfl⟩

theorem ignoresMemory_writeReg_retire (rd : Fin 8) (v : Word) :
    IgnoresMemory fun s => (s.writeReg rd v).retire s.nextPc := fun _ _ => ⟨rfl, rfl⟩

theorem ignoresMemory_writeResult (rd : Fin 8) (r : Word) (f : Flags) :
    IgnoresMemory fun s => s.writeResult rd r f := fun _ _ => ⟨rfl, rfl⟩

theorem IgnoresMemory.ite {p : Prop} [Decidable p] {next next' : State → State}
    (h : IgnoresMemory next) (h' : IgnoresMemory next') :
    IgnoresMemory fun s => if p then next s else next' s := by
  by_cases hp : p
  · simpa only [hp, if_true] using h
  · simpa only [hp, if_false] using h'

/-- The check of a register field reads no memory, and neither does the fault it raises. -/
theorem IgnoresMemory.withRegister (f : BitVec 8) {body : State → Fin 8 → State}
    (h : ∀ r, IgnoresMemory fun s => body s r) : IgnoresMemory fun s => withRegister f s (body s) := by
  intro s m
  by_cases hf : f.toNat < 8
  · simpa only [withRegister_of_lt hf] using h ⟨f.toNat, hf⟩ s m
  · simp only [withRegister_of_ge (Nat.not_lt.1 hf)]
    exact ⟨rfl, rfl⟩

theorem IgnoresMemory.withAluOperands (a b : BitVec 8) (c : BitVec 16) {body : State → Fin 8 → Word → Word → State}
    (h : ∀ rd x y, IgnoresMemory fun s => body s rd x y) :
    IgnoresMemory fun s => withAluOperands a b c s (body s) :=
  .withRegister a fun rd => .withRegister b fun rs s m => h rd (s.readReg rs) (s.resolve c) s m

theorem ignoresMemory_conditionalJump (taken : Word → Word → Bool) (a b : BitVec 8) (c : BitVec 16) :
    IgnoresMemory (conditionalJump taken a b c) :=
  .withRegister a fun _ => .withRegister b fun _ _ _ => ⟨rfl, rfl⟩

/-! ### The instructions -/

theorem exists_ignoresMemory_exec {i : Instr} (hi : usesDataMemory i = false) :
    ∃ next, (∀ s, exec i s = .next (next s)) ∧ IgnoresMemory next := by
  cases i with
  | mov a imm16 => exact ⟨_, fun _ => rfl, .withRegister a fun rd => ignoresMemory_writeReg_retire rd _⟩
  | add a b c => exact ⟨_, fun _ => rfl, .withAluOperands a b c fun rd _ _ => ignoresMemory_writeResult rd _ _⟩
  | sub a b c => exact ⟨_, fun _ => rfl, .withAluOperands a b c fun rd _ _ => ignoresMemory_writeResult rd _ _⟩
  | mul a b c => exact ⟨_, fun _ => rfl, .withAluOperands a b c fun rd _ _ => ignoresMemory_writeResult rd _ _⟩
  | div a b c =>
    exact ⟨_, fun _ => rfl, .withAluOperands a b c fun rd _ _ =>
      ignoresMemory_retire_nextPc.ite (ignoresMemory_writeResult rd _ _)⟩
  | and a b c => exact ⟨_, fun _ => rfl, .withAluOperands a b c fun rd _ _ => ignoresMemory_writeResult rd _ _⟩
  | or a b c => exact ⟨_, fun _ => rfl, .withAluOperands a b c fun rd _ _ => ignoresMemory_writeResult rd _ _⟩
  | str a imm16 => cases hi
  | ld a imm16 => cases hi
  | jmp imm16 => exact ⟨_, fun _ => rfl, ignoresMemory_retire_at _⟩
  | jmpe a b c => exact ⟨_, fun _ => rfl, ignoresMemory_conditionalJump _ a b c⟩
  | jmpn a b c => exact ⟨_, fun _ => rfl, ignoresMemory_conditionalJump _ a b c⟩
  | jmpg a b c => exact ⟨_, fun _ => rfl, ignoresMemory_conditionalJump _ a b c⟩
  | jmpl a b c => exact ⟨_, fun _ => rfl, ignoresMemory_conditionalJump _ a b c⟩
  | jmpr a => exact ⟨_, fun _ => rfl, .withRegister a fun _ _ _ => ⟨rfl, rfl⟩⟩
  | nop => exact ⟨_, fun _ => rfl, ignoresMemory_retire_nextPc⟩

/-- LD whose index checks pass (42_load_store.md R131). -/
theorem exec_ld_of_eq {a : BitVec 8} {imm16 : BitVec 16} {rd : Fin 8} {addr : Fin 256} (ha : a.toNat = rd)
    (haddr : imm16.toNat = addr) (s : State) :
    exec (.ld a imm16) s = .next ((s.writeReg rd (s.loadWord addr)).retire s.nextPc) := by
  change execLd a imm16 s = _
  rw [execLd, withRegister_of_eq ha, withAddress_of_eq haddr]

/-- STR whose index checks pass (42_load_store.md R130). -/
theorem exec_str_of_eq {a : BitVec 8} {imm16 : BitVec 16} {rs : Fin 8} {addr : Fin 256} (ha : a.toNat = rs)
    (haddr : imm16.toNat = addr) (s : State) :
    exec (.str a imm16) s =
      .next (((s.storeWord addr (s.readReg rs)).setFlags Flags.allFalse).retire s.nextPc) := by
  change execStr a imm16 s = _
  rw [execStr, withRegister_of_eq ha, withAddress_of_eq haddr]

/-- Settles O30: the instructions but LD and STR by `IgnoresMemory`; LD and STR by their executions and the
read-after-write laws of the register file and of data memory. -/
theorem onlyLoadAndStoreAccessDataMemory : Obligations.OnlyLoadAndStoreAccessDataMemory := by
  refine ⟨fun i s t m hi ht => ?others, fun a imm16 ra s ha haddr => ?ld, fun a imm16 ra s ha haddr hwf => ?str⟩
  case others =>
    obtain ⟨next, hexec, hnext⟩ := exists_ignoresMemory_exec hi
    obtain rfl : next s = t := Host.Outcome.next.inj ((hexec s).symm.trans ht)
    obtain ⟨hmem, hwith⟩ := hnext s m
    exact ⟨hmem, (hexec _).trans (congrArg _ hwith)⟩
  case ld =>
    refine ⟨_, exec_ld_of_eq (addr := ⟨imm16.toNat, haddr⟩) ha rfl s, ?_, rfl, fun r hr => ?_⟩
    · rw [State.readReg_retire, State.readReg_writeReg_same, State.loadWord]
    · rw [State.readReg_retire, State.readReg_writeReg_other s ra r _ hr]
  case str =>
    exact ⟨_, exec_str_of_eq (addr := ⟨imm16.toNat, haddr⟩) ha rfl s, Memory.read_write_same hwf _ _, rfl,
      fun _ hother => Memory.read_write_other s.mem _ hother⟩

end Sys2Proof.Machine
end

section
/-! Opcode selection (30_encoding.md R62, R63, R65). The decoder's match is split once, in `decode_cases`, into a catalog
row or an undefined byte; the rest follows from that and from the catalog's own bytes. -/

namespace Sys2Proof

/-- The opcode bytes R63 defines. -/
def IsCatalogByte (op : BitVec 8) : Prop := (1 ≤ op.toNat ∧ op.toNat ≤ 15) ∨ op.toNat = 255

theorem Instr.isCatalogByte_opcode (i : Instr) : IsCatalogByte i.opcode := by
  cases i <;> simp [IsCatalogByte, Instr.opcode]

/-- A word decodes to the catalog row of its opcode byte, or its byte is outside the catalog and is carried as it is. -/
theorem decode_cases (legacy : Bool) (w : Word) :
    (∃ i, decode legacy w = .instr i ∧ i.opcode = opcodeField w) ∨
      (decode legacy w = .undefined (opcodeField w) ∧ ¬ IsCatalogByte (opcodeField w)) := by
  unfold decode
  split
  case h_17 =>
    refine .inr ⟨rfl, ?_⟩
    simp only [imp_false, IsCatalogByte] at *
    bv_omega
  all_goals exact .inl ⟨_, rfl, Eq.symm ‹_›⟩

theorem opcode_of_decode_instr {legacy : Bool} {w : Word} {i : Instr} (h : decode legacy w = .instr i) :
    i.opcode = opcodeField w := by
  obtain ⟨j, hj, hop⟩ | ⟨hundef, -⟩ := decode_cases legacy w
  · obtain rfl : j = i := Decoded.instr.inj (hj.symm.trans h)
    exact hop
  · cases hundef.symm.trans h

theorem eq_opcodeField_of_decode_undefined {legacy : Bool} {w : Word} {op : BitVec 8}
    (h : decode legacy w = .undefined op) : op = opcodeField w := by
  obtain ⟨j, hj, -⟩ | ⟨hundef, -⟩ := decode_cases legacy w
  · cases hj.symm.trans h
  · exact Decoded.undefined.inj (h.symm.trans hundef)

theorem exists_decode_instr_iff (legacy : Bool) (w : Word) :
    (∃ i, decode legacy w = .instr i) ↔ IsCatalogByte (opcodeField w) := by
  constructor
  · rintro ⟨i, hi⟩
    exact opcode_of_decode_instr hi ▸ i.isCatalogByte_opcode
  · intro hbyte
    obtain ⟨i, hi, -⟩ | ⟨-, hnot⟩ := decode_cases legacy w
    · exact ⟨i, hi⟩
    · exact absurd hbyte hnot

/-- Settles O4, from the two-way case analysis of the decoder. -/
theorem opcodeByteAloneSelectsTheInstruction : Obligations.OpcodeByteAloneSelectsTheInstruction := fun legacy w =>
  ⟨exists_decode_instr_iff legacy w, fun _ => opcode_of_decode_instr, fun _ => eq_opcodeField_of_decode_undefined⟩

end Sys2Proof
end

section
/-! The third operand (30_encoding.md R60). -/

namespace Sys2Proof.Machine

/-- Settles O6, by the two laws of `resolve`: the register below 8, and from 8 up the literal, which loses nothing when
it is zero-extended. -/
theorem thirdOperandBelowEightIsARegister : Obligations.ThirdOperandBelowEightIsARegister := by
  intro s c
  refine ⟨fun r hr => s.resolve_register hr, fun hliteral => ?_⟩
  rw [s.resolve_literal hliteral, BitVec.toNat_setWidth_of_le (by decide)]

end Sys2Proof.Machine
end

section
/-! MOV (41_alu.md R111): its execution on either side of the register check. -/

namespace Sys2Proof.Machine

/-- MOV whose register check passes (41_alu.md R111). -/
theorem exec_mov_of_eq {a : BitVec 8} {rd : Fin 8} (ha : a.toNat = rd) (imm16 : BitVec 16) (s : State) :
    exec (.mov a imm16) s = .next ((s.writeReg rd (immediate imm16)).retire s.nextPc) := by
  change execMov a imm16 s = _
  rw [execMov, withRegister_of_eq ha]

/-- MOV whose register check fails (40_sequencer.md R96; 60_exceptions.md R170). -/
theorem exec_mov_of_ge {a : BitVec 8} (ha : 8 ≤ a.toNat) (imm16 : BitVec 16) (s : State) :
    exec (.mov a imm16) s = .next (s.raiseIndexFault .register a.toNat) := by
  change execMov a imm16 s = _
  rw [execMov, withRegister_of_ge ha]

/-- Settles O19, from the decoder's row for byte 0x01 and MOV's execution on either side of its register check. -/
theorem movWritesTheZeroExtendedImmediate : Obligations.MovWritesTheZeroExtendedImmediate :=
  ⟨decode_mov, fun _ imm16 _ s ha => exec_mov_of_eq ha imm16 s, fun _ imm16 s ha => exec_mov_of_ge ha imm16 s⟩

end Sys2Proof.Machine
end

section
/-! The jumps and the flags (43_branch.md R149). A next state that commutes with a change of the flags reads none and,
with the change to the flags already there, writes none: one rule for each shared shape of a jump gives both halves. -/

namespace Sys2Proof.Machine

/-- The check of a register field reads no flags, and neither does the fault it raises. -/
theorem withRegister_withFlags {field : BitVec 8} {s : State} {f : Flags} {body body' : Fin 8 → State}
    (h : ∀ r, body' r = (body r).withFlags f) :
    withRegister field (s.withFlags f) body' = (withRegister field s body).withFlags f := by
  by_cases hfield : field.toNat < 8
  · rw [withRegister_of_lt hfield, withRegister_of_lt hfield, h]
  · rw [withRegister_of_ge (Nat.not_lt.1 hfield), withRegister_of_ge (Nat.not_lt.1 hfield)]
    rfl

theorem conditionalJump_withFlags (taken : Word → Word → Bool) (a b : BitVec 8) (c : BitVec 16) (s : State)
    (f : Flags) : conditionalJump taken a b c (s.withFlags f) = (conditionalJump taken a b c s).withFlags f :=
  withRegister_withFlags fun _ => withRegister_withFlags fun _ => rfl

theorem exists_exec_withFlags_of_isJump {i : Instr} (hi : isJump i = true) :
    ∃ next : State → State, (∀ s, exec i s = .next (next s)) ∧ ∀ s f, next (s.withFlags f) = (next s).withFlags f := by
  cases i with
  | jmp imm16 => exact ⟨_, fun _ => rfl, fun _ _ => rfl⟩
  | jmpe a b c => exact ⟨_, fun _ => rfl, conditionalJump_withFlags _ a b c⟩
  | jmpn a b c => exact ⟨_, fun _ => rfl, conditionalJump_withFlags _ a b c⟩
  | jmpg a b c => exact ⟨_, fun _ => rfl, conditionalJump_withFlags _ a b c⟩
  | jmpl a b c => exact ⟨_, fun _ => rfl, conditionalJump_withFlags _ a b c⟩
  | jmpr a => exact ⟨_, fun _ => rfl, fun _ _ => withRegister_withFlags fun _ => by rfl⟩
  | _ => cases hi

/-- R149: a jump from the same state with other flags does the same and leaves those flags. -/
theorem exec_withFlags_of_isJump {i : Instr} {s t : State} (hi : isJump i = true) (h : exec i s = .next t)
    (f : Flags) : exec i (s.withFlags f) = .next (t.withFlags f) := by
  obtain ⟨next, hexec, hnext⟩ := exists_exec_withFlags_of_isJump hi
  obtain rfl : next s = t := Host.Outcome.next.inj ((hexec s).symm.trans h)
  exact (hexec _).trans (congrArg _ (hnext s f))

/-- No jump writes the flags: R141 to R144, and for JMP and JMPR the decision D18. -/
theorem flags_of_exec_isJump {i : Instr} {s t : State} (hi : isJump i = true) (h : exec i s = .next t) :
    t.flags = s.flags := by
  have hself : exec i s = .next (t.withFlags s.flags) := exec_withFlags_of_isJump hi h s.flags
  have ht : t = t.withFlags s.flags := Host.Outcome.next.inj (h.symm.trans hself)
  rw [ht, State.withFlags_flags]

/-- Settles O36: a jump commutes with a change of the flags, and so it leaves those it finds. -/
theorem noBranchReadsTheFlags : Obligations.NoBranchReadsTheFlags := fun _ _ _ f hi h =>
  ⟨flags_of_exec_isJump hi h, exec_withFlags_of_isJump hi h f⟩

end Sys2Proof.Machine
end

section
/-! The decoder outside the catalog (30_encoding.md R65). -/

namespace Sys2Proof

theorem decode_of_not_isCatalogByte (legacy : Bool) {w : Word} (h : ¬ IsCatalogByte (opcodeField w)) :
    decode legacy w = .undefined (opcodeField w) := by
  obtain ⟨i, hi, -⟩ | ⟨hundef, -⟩ := decode_cases legacy w
  · exact absurd ((exists_decode_instr_iff legacy w).1 ⟨i, hi⟩) h
  · exact hundef

theorem not_isCatalogByte_of_undefined_range {op : BitVec 8} (h : op.toNat = 0 ∨ (16 ≤ op.toNat ∧ op.toNat ≤ 254)) :
    ¬ IsCatalogByte op := by
  unfold IsCatalogByte
  omega

end Sys2Proof
end

section
/-! A step from a Ready state whose fetched word is known (40_sequencer.md R93, R104): the transition and its report both
come of the decoded word. An undefined opcode is one case of it (44_nop_invalid.md R156; 60_exceptions.md R168). -/

namespace Sys2Proof.Machine

/-- A word at `pc` puts `pc` inside the program store, so the core is not at its program's end (40_sequencer.md R94). -/
theorem State.ReadyWith.status_eq {s : State} {w : Word} (h : s.ReadyWith w) : status s = .ready := by
  obtain ⟨hfault, hbudget, hword⟩ := h
  obtain ⟨hpc, -⟩ := List.getElem?_eq_some_iff.1 hword
  exact (status_ready_iff s).2 ⟨hfault, hpc, hbudget⟩

theorem State.ReadyWith.fetch_eq {s : State} {w : Word} (h : s.ReadyWith w) : fetch s = some w := by
  obtain ⟨-, -, hword⟩ := h
  exact hword

theorem State.ReadyWith.step_eq {s : State} {w : Word} (h : s.ReadyWith w) :
    step s = execDecoded (decode s.params.legacyOverlap w) s :=
  step_of_ready h.status_eq h.fetch_eq

theorem State.ReadyWith.stepCondition_eq {s : State} {w : Word} (h : s.ReadyWith w) :
    stepCondition s = decodedCondition (decode s.params.legacyOverlap w) := by
  simp only [stepCondition, h.status_eq, h.fetch_eq]

/-- Settles O10: the byte is outside the catalog, so the word decodes to an undefined opcode carrying it, and the step
and its report are those of that decoded word. -/
theorem undefinedOpcodeIsReportedAndPassed : Obligations.UndefinedOpcodeIsReportedAndPassed := by
  intro s w hready hop
  have hdecode : decode s.params.legacyOverlap w = .undefined (opcodeField w) :=
    decode_of_not_isCatalogByte _ (not_isCatalogByte_of_undefined_range hop)
  constructor
  case left =>
    rw [hready.step_eq, hdecode]
    rfl
  case right =>
    rw [hready.stepCondition_eq, hdecode]
    rfl

end Sys2Proof.Machine
end

section
/-! DIV by zero (41_alu.md R115; 60_exceptions.md R169): when its register fields pass the index check and its divisor
is zero, the execution only retires. -/

namespace Sys2Proof.Machine

theorem registerCheck_of_eq {f : BitVec 8} {r : Fin 8} (h : f.toNat = r) : registerCheck f = none := by
  have hle : f.toNat ≤ 7 := by omega
  rw [registerCheck, if_neg (Nat.not_lt.2 hle)]

theorem indexCheck_div_of_eq {a b : BitVec 8} {rd rs : Fin 8} (ha : a.toNat = rd) (hb : b.toNat = rs)
    (c : BitVec 16) : indexCheck (.div a b c) = none := by
  rw [indexCheck, registerCheck_of_eq ha, registerCheck_of_eq hb, Option.none_or]

/-- The report of a catalog instruction that passes its index check (40_sequencer.md R104). -/
theorem decodedCondition_of_indexCheck_none {i : Instr} (h : indexCheck i = none) :
    decodedCondition (.instr i) = .none := by
  simp only [decodedCondition, h]

/-- DIV whose index checks pass (41_alu.md R115). -/
theorem exec_div_of_eq {a b : BitVec 8} {rd rs : Fin 8} (ha : a.toNat = rd) (hb : b.toNat = rs) (c : BitVec 16)
    (s : State) :
    exec (.div a b c) s = .next (if s32 (s.resolve c) = 0 then s.retire s.nextPc else
      s.writeResult rd (div32 (s.readReg rs) (s.resolve c)) (divFlags (s.readReg rs) (s.resolve c))) := by
  change execDiv a b c s = _
  rw [execDiv, withAluOperands_of_eq ha hb]

theorem exec_div_of_zero_divisor {a b : BitVec 8} {c : BitVec 16} {rd rs : Fin 8} {s : State} (ha : a.toNat = rd)
    (hb : b.toNat = rs) (hzero : s.resolve c = 0#32) : exec (.div a b c) s = .next (s.retire s.nextPc) := by
  have hsigned : s32 (s.resolve c) = 0 := by rw [hzero]; rfl
  rw [exec_div_of_eq ha hb, if_pos hsigned]

/-- Settles O24: the Ready step runs the decoded DIV, which takes its zero-divisor branch and passes its index check. -/
theorem divisionByZeroIsASilentNoOp : Obligations.DivisionByZeroIsASilentNoOp := by
  intro s w a b c rd rs hready hdecode ha hb hzero
  refine ⟨?step, exec_div_of_zero_divisor ha hb hzero, ?condition⟩
  case step =>
    rw [hready.step_eq, hdecode]
    rfl
  case condition =>
    rw [hready.stepCondition_eq, hdecode]
    exact decodedCondition_of_indexCheck_none (indexCheck_div_of_eq ha hb c)

end Sys2Proof.Machine
end

section
/-! `configureStepInterval` among the host's operations (70_reset_and_hazards.md R190, R191): a sequence of host
operations may be changed behind any prefix into one with the same outcomes. -/

namespace Sys2Proof.Machine

@[simp] theorem hostOp_configureStepInterval (v : Nat) (s : State) :
    hostOp (.configureStepInterval v) s = .next s := rfl

theorem hostRun_configureStepInterval_cons (v : Nat) (ops : List HostOp) (s : State) :
    hostRun (.configureStepInterval v :: ops) s = hostRun ops s :=
  hostRun_cons_of_next ops (hostOp_configureStepInterval v s)

/-- Two sequences with the same outcome from every state have the same outcome behind the same first operations: those
either hand both sequences one state or stop both runs before either begins. -/
theorem hostRun_append_congr {ops ops' : List HostOp} (h : ∀ s, hostRun ops s = hostRun ops' s)
    (before : List HostOp) (s : State) : hostRun (before ++ ops) s = hostRun (before ++ ops') s := by
  induction before generalizing s with
  | nil => exact h s
  | cons op before ih =>
    cases hop : hostOp op s with
    | next t =>
      calc hostRun (op :: (before ++ ops)) s
          = hostRun (before ++ ops) t := hostRun_cons_of_next _ hop
        _ = hostRun (before ++ ops') t := ih t
        _ = hostRun (op :: (before ++ ops')) s := (hostRun_cons_of_next _ hop).symm
    | fault r => simp only [List.cons_append, hostRun, hop]
    | refused r => simp only [List.cons_append, hostRun, hop]

/-- Settles O45: the operation answers its own state, so dropping it from the head of a sequence keeps every outcome,
and `hostRun_append_congr` carries that behind the operations before it. -/
theorem stepIntervalHasNoEffect : Obligations.StepIntervalHasNoEffect := fun before after v s =>
  ⟨hostOp_configureStepInterval v s, hostRun_append_congr (hostRun_configureStepInterval_cons v after) before s⟩

end Sys2Proof.Machine
end

section
/-! Construction and load (70_reset_and_hazards.md R187, R192): the fields of a constructed engine. -/

namespace Sys2Proof.Machine

section

variable (p : Params) (words : List Word)

@[simp] theorem construct_regs : (construct p words).regs = Vector.replicate 8 0#32 := rfl
@[simp] theorem construct_flags : (construct p words).flags = Flags.allFalse := rfl
@[simp] theorem construct_pc : (construct p words).pc = 0#32 := rfl
@[simp] theorem construct_mem : (construct p words).mem = [] := rfl
@[simp] theorem construct_stepCount : (construct p words).stepCount = 0 := rfl
@[simp] theorem construct_fault : (construct p words).fault = none := rfl
@[simp] theorem construct_prog : (construct p words).prog = words.take p.progCapacity := rfl
@[simp] theorem construct_params : (construct p words).params = p := rfl

theorem readReg_construct (r : Fin 8) : (construct p words).readReg r = 0#32 := by
  simp [State.readReg]

theorem read_construct_mem (a : Nat) : Memory.read (construct p words).mem a = 0#32 := by
  rw [construct_mem, Memory.read_nil, Memory.unlisted]

/-- R192: loading truncates to the capacity. -/
theorem length_construct_prog : (construct p words).prog.length = min p.progCapacity words.length := by
  rw [construct_prog, List.length_take]

/-- R192: index `n` of the program holds word `n`, for every index the capacity takes. -/
theorem getElem?_construct_prog {n : Nat} (hn : n < p.progCapacity) : (construct p words).prog[n]? = words[n]? := by
  rw [construct_prog, List.getElem?_take_of_lt hn]

end

/-- Settles O42, from the fields of a constructed engine: what is reset is zero or false, and the program is the prefix
of the words that the capacity takes. -/
theorem constructionGivesTheResetValues : Obligations.ConstructionGivesTheResetValues := by
  rintro p words s rfl
  exact ⟨readReg_construct p words, read_construct_mem p words, construct_pc p words, construct_flags p words,
    construct_stepCount p words, construct_fault p words, construct_params p words, length_construct_prog p words,
    fun _ hn => getElem?_construct_prog p words hn⟩

end Sys2Proof.Machine
end

section
/-! The round trip between words and instructions (30_encoding.md R56, R58, R64, R69, R82). Both directions are said once
for each format, on the fields; the instructions of one format then differ in their opcode byte alone. -/

namespace Sys2Proof

/-! ### From the fields to the word and back: format R3 -/

/-- A third operand that fits its layout has field B, or nothing, above its low byte, so the or into B changes no bit. -/
theorem fieldB_encodeR3_of_fits {legacy : Bool} {b : BitVec 8} {c : BitVec 16} (h : thirdFieldFits legacy b c = true)
    (op a : BitVec 8) : fieldB (encodeR3 op a b c) = b := by
  rw [fieldB_encodeR3]
  cases legacy with
  | true => rw [(thirdFieldFits_legacy b c).1 h, BitVec.or_self]
  | false =>
    have hlow : c.toNat < 256 := (thirdFieldFits_default b c).1 h
    have hhigh : c.extractLsb' 8 8 = 0#8 := by
      apply BitVec.eq_of_toNat_eq
      simp [BitVec.extractLsb'_toNat, Nat.shiftRight_eq_div_pow]
      omega
    rw [hhigh, BitVec.or_zero]

theorem fieldC_encodeR3_of_fits {legacy : Bool} {b : BitVec 8} {c : BitVec 16} (h : thirdFieldFits legacy b c = true)
    (op a : BitVec 8) : fieldC legacy (encodeR3 op a b c) = c := by
  cases legacy with
  | true =>
    obtain rfl : c.extractLsb' 8 8 = b := (thirdFieldFits_legacy b c).1 h
    change imm16Field (encodeR3 op a _ c) = c
    rw [imm16Field_encodeR3]
    ext i hi; interval_cases i <;> simp
  | false =>
    have hlow : c.toNat < 256 := (thirdFieldFits_default b c).1 h
    rw [fieldC_default, lowByte_encodeR3]
    apply BitVec.eq_of_toNat_eq
    simp [BitVec.extractLsb'_toNat]
    omega

/-! ### From the word to its fields and back -/

theorem encodeR3_fields (legacy : Bool) (w : Word) :
    encodeR3 (opcodeField w) (fieldA w) (fieldB w) (fieldC legacy w) = w := by
  ext i hi
  cases legacy <;> interval_cases i <;> simp [encodeR3, opcodeField, fieldA, fieldB, fieldC, imm16Field]

theorem thirdFieldFits_fields (legacy : Bool) (w : Word) : thirdFieldFits legacy (fieldB w) (fieldC legacy w) = true := by
  cases legacy with
  | true =>
    rw [thirdFieldFits_legacy, fieldC_legacy]
    ext i hi; simp [fieldB]
  | false =>
    rw [thirdFieldFits_default, fieldC_default, BitVec.toNat_setWidth_of_le (by decide)]
    exact BitVec.isLt _

theorem encodeRI_fields (w : Word) : encodeRI (opcodeField w) (fieldA w) (imm16Field w) = w := by
  ext i hi
  interval_cases i <;> simp [encodeRI, opcodeField, fieldA, imm16Field]

theorem encodeJ_fields (w : Word) : encodeJ (opcodeField w) (imm16Field w) = w &&& 0xFF00FFFF#32 := by
  ext i hi
  interval_cases i <;> simp [encodeJ, opcodeField, imm16Field]

theorem encodeR1_fields (w : Word) : encodeR1 (opcodeField w) (fieldA w) = w &&& 0xFFFF0000#32 := by
  ext i hi
  interval_cases i <;> simp [encodeR1, opcodeField, fieldA]

theorem encodeN_field (w : Word) : encodeN (opcodeField w) = w &&& 0xFF000000#32 := by
  ext i hi
  interval_cases i <;> simp [encodeN, opcodeField]

/-! ### The instructions, one line for each opcode of a format -/

section

variable {legacy : Bool} {op : BitVec 8}

theorem decode_encodeR3_of_fits {mk : BitVec 8 → BitVec 8 → BitVec 16 → Instr}
    (hrow : ∀ w, opcodeField w = op → decode legacy w = .instr (mk (fieldA w) (fieldB w) (fieldC legacy w)))
    {b : BitVec 8} {c : BitVec 16} (h : thirdFieldFits legacy b c = true) (a : BitVec 8) :
    decode legacy (encodeR3 op a b c) = .instr (mk a b c) := by
  rw [hrow _ (opcodeField_encodeR3 ..), fieldA_encodeR3, fieldB_encodeR3_of_fits h, fieldC_encodeR3_of_fits h]

theorem decode_encodeRI {mk : BitVec 8 → BitVec 16 → Instr}
    (hrow : ∀ w, opcodeField w = op → decode legacy w = .instr (mk (fieldA w) (imm16Field w)))
    (a : BitVec 8) (imm16 : BitVec 16) : decode legacy (encodeRI op a imm16) = .instr (mk a imm16) := by
  rw [hrow _ (opcodeField_encodeRI ..), fieldA_encodeRI, imm16Field_encodeRI]

/-- The word of an instruction whose format uses every bit, from the fields of `w`. -/
theorem reencodeR3 (legacy : Bool) {op : BitVec 8} {w : Word} (h : op = opcodeField w) :
    thirdFieldFits legacy (fieldB w) (fieldC legacy w) = true ∧
      encodeR3 op (fieldA w) (fieldB w) (fieldC legacy w) = w &&& 0xFFFFFFFF#32 := by
  subst h
  exact ⟨thirdFieldFits_fields legacy w, (encodeR3_fields legacy w).trans BitVec.and_allOnes.symm⟩

theorem reencodeRI {op : BitVec 8} {w : Word} (h : op = opcodeField w) :
    encodeRI op (fieldA w) (imm16Field w) = w &&& 0xFFFFFFFF#32 := by
  subst h
  exact (encodeRI_fields w).trans BitVec.and_allOnes.symm

end

/-- Settles O2, one format at a time: the opcode byte of the word selects the row (R63), and the row's fields are the
operands that were packed. -/
theorem decodeOfEncodeIsTheInstruction : Obligations.DecodeOfEncodeIsTheInstruction := by
  intro legacy i hfits
  cases i with
  | mov a imm16 => exact decode_encodeRI (decode_mov legacy) a imm16
  | add a b c => exact decode_encodeR3_of_fits (decode_add legacy) hfits a
  | sub a b c => exact decode_encodeR3_of_fits (decode_sub legacy) hfits a
  | mul a b c => exact decode_encodeR3_of_fits (decode_mul legacy) hfits a
  | div a b c => exact decode_encodeR3_of_fits (decode_div legacy) hfits a
  | and a b c => exact decode_encodeR3_of_fits (decode_and legacy) hfits a
  | or a b c => exact decode_encodeR3_of_fits (decode_or legacy) hfits a
  | str a imm16 => exact decode_encodeRI (decode_str legacy) a imm16
  | ld a imm16 => exact decode_encodeRI (decode_ld legacy) a imm16
  | jmp imm16 => rw [decode_jmp legacy _ (Laws.EncodedOpcode.jmp imm16), encode, imm16Field_encodeJ]
  | jmpe a b c => exact decode_encodeR3_of_fits (decode_jmpe legacy) hfits a
  | jmpn a b c => exact decode_encodeR3_of_fits (decode_jmpn legacy) hfits a
  | jmpg a b c => exact decode_encodeR3_of_fits (decode_jmpg legacy) hfits a
  | jmpl a b c => exact decode_encodeR3_of_fits (decode_jmpl legacy) hfits a
  | jmpr a => rw [decode_jmpr legacy _ (Laws.EncodedOpcode.jmpr a), encode, fieldA_encodeR1]
  | nop => exact decode_nop legacy _ Laws.EncodedOpcode.nop

/-- Settles O3: the word's opcode byte is the instruction's, so its operands are the word's fields, and packing those
again gives back the bits that the format uses (D6). -/
theorem decodedInstructionReencodesToItsUsedBits : Obligations.DecodedInstructionReencodesToItsUsedBits := by
  intro legacy w i hi
  have hop : i.opcode = opcodeField w := opcode_of_decode_instr hi
  cases i with
  | mov a imm16 => cases hi.symm.trans (decode_mov legacy w hop.symm); exact ⟨rfl, reencodeRI hop⟩
  | add a b c => cases hi.symm.trans (decode_add legacy w hop.symm); exact reencodeR3 legacy hop
  | sub a b c => cases hi.symm.trans (decode_sub legacy w hop.symm); exact reencodeR3 legacy hop
  | mul a b c => cases hi.symm.trans (decode_mul legacy w hop.symm); exact reencodeR3 legacy hop
  | div a b c => cases hi.symm.trans (decode_div legacy w hop.symm); exact reencodeR3 legacy hop
  | and a b c => cases hi.symm.trans (decode_and legacy w hop.symm); exact reencodeR3 legacy hop
  | or a b c => cases hi.symm.trans (decode_or legacy w hop.symm); exact reencodeR3 legacy hop
  | str a imm16 => cases hi.symm.trans (decode_str legacy w hop.symm); exact ⟨rfl, reencodeRI hop⟩
  | ld a imm16 => cases hi.symm.trans (decode_ld legacy w hop.symm); exact ⟨rfl, reencodeRI hop⟩
  | jmp imm16 =>
    cases hi.symm.trans (decode_jmp legacy w hop.symm)
    exact ⟨rfl, (congrArg (encodeJ · _) hop).trans (encodeJ_fields w)⟩
  | jmpe a b c => cases hi.symm.trans (decode_jmpe legacy w hop.symm); exact reencodeR3 legacy hop
  | jmpn a b c => cases hi.symm.trans (decode_jmpn legacy w hop.symm); exact reencodeR3 legacy hop
  | jmpg a b c => cases hi.symm.trans (decode_jmpg legacy w hop.symm); exact reencodeR3 legacy hop
  | jmpl a b c => cases hi.symm.trans (decode_jmpl legacy w hop.symm); exact reencodeR3 legacy hop
  | jmpr a =>
    cases hi.symm.trans (decode_jmpr legacy w hop.symm)
    exact ⟨rfl, (congrArg (encodeR1 · _) hop).trans (encodeR1_fields w)⟩
  | nop => exact ⟨rfl, (congrArg encodeN hop).trans (encodeN_field w)⟩

/-- Settles O5, from the bits of each field: the legacy third operand has field B above the low byte. -/
theorem legacyThirdOperandContainsFieldB : Obligations.LegacyThirdOperandContainsFieldB := by
  intro w
  have hdefault : (fieldC false w).toNat = w.toNat % 256 := by
    rw [fieldC_default, BitVec.toNat_setWidth_of_le (by decide), BitVec.extractLsb'_toNat, Nat.shiftRight_zero]
  have hb : (fieldB w).toNat = w.toNat / 256 % 256 := by
    rw [fieldB, BitVec.extractLsb'_toNat, Nat.shiftRight_eq_div_pow]
  have hlegacy : (fieldC true w).toNat = (fieldB w).toNat * 256 + w.toNat % 256 := by
    rw [hb, fieldC_legacy, BitVec.extractLsb'_toNat, Nat.shiftRight_zero]
    omega
  refine ⟨hdefault, hlegacy, fun hregister => BitVec.eq_of_toNat_eq ?_⟩
  rw [BitVec.toNat_ofNat]
  omega

/-- Settles O1: each word has a catalog byte, whose row gives its fields (R57, R62), but for the last one, whose byte is
none of the catalog (R65). -/
theorem wordsOfTheSpecDecode : Obligations.WordsOfTheSpecDecode :=
  ⟨decode_mov _ _ rfl, decode_add _ _ rfl, decode_add _ _ rfl, decode_str _ _ rfl, decode_jmp _ _ rfl,
    decode_jmpg _ _ rfl, decode_jmpr _ _ rfl, decode_nop _ _ rfl,
    decode_of_not_isCatalogByte _ (not_isCatalogByte_of_undefined_range (.inl rfl))⟩

end Sys2Proof
end

section
/-! What a step does, said once (40_sequencer.md R93, R96 to R99): the index checks come first and whole, and when they
pass the instruction makes its writes, takes its next pc and counts one step. `exec_eq` says that every meaning of the
model factors so; what a step keeps or changes then follows from the two parts, `writeBack` and `nextPcOf`. -/

namespace Sys2Proof.Machine

/-! ### The parts of an execution -/

/-- The register that a field names, when it names one. -/
def registerOf (f : BitVec 8) : Fin 8 := Fin.ofNat 8 f.toNat

/-- The data address that a field names, when it names one. -/
def addressOf (f : BitVec 16) : Fin 256 := Fin.ofNat 256 f.toNat

/-- An ALU instruction's writes: its result and its flags, from `x[B]` and `resolve(C)` (41_alu.md R110). -/
def State.writeAlu (s : State) (result : Word → Word → Word) (flags : Word → Word → Flags) (a b : BitVec 8)
    (c : BitVec 16) : State :=
  (s.writeReg (registerOf a) (result (s.readReg (registerOf b)) (s.resolve c))).setFlags
    (flags (s.readReg (registerOf b)) (s.resolve c))

/-- The writes of an instruction whose index checks pass (40_sequencer.md R98). -/
def writeBack : Instr → State → State
  | .mov a imm16, s => s.writeReg (registerOf a) (immediate imm16)
  | .add a b c, s => s.writeAlu addResult addFlags a b c
  | .sub a b c, s => s.writeAlu subResult subFlags a b c
  | .mul a b c, s => s.writeAlu mulResult mulFlags a b c
  | .div a b c, s => if s32 (s.resolve c) = 0 then s else s.writeAlu div32 divFlags a b c
  | .and a b c, s => s.writeAlu (· &&& ·) (fun _ _ => Flags.allFalse) a b c
  | .or a b c, s => s.writeAlu (· ||| ·) (fun _ _ => Flags.allFalse) a b c
  | .str a imm16, s => (s.storeWord (addressOf imm16) (s.readReg (registerOf a))).setFlags Flags.allFalse
  | .ld a imm16, s => s.writeReg (registerOf a) (s.loadWord (addressOf imm16))
  | _, s => s

/-- A conditional jump's next pc (43_branch.md R141 to R144). -/
def State.branchPc (s : State) (taken : Word → Word → Bool) (a b : BitVec 8) (c : BitVec 16) : Word :=
  if taken (s.readReg (registerOf a)) (s.readReg (registerOf b)) then jumpTarget c else s.nextPc

/-- The next pc of an instruction whose index checks pass (40_sequencer.md R97). -/
def nextPcOf : Instr → State → Word
  | .jmp imm16, _ => jumpTarget imm16
  | .jmpe a b c, s => s.branchPc (fun x y => decide (x = y)) a b c
  | .jmpn a b c, s => s.branchPc (fun x y => decide (x ≠ y)) a b c
  | .jmpg a b c, s => s.branchPc (fun x y => decide (s32 x > s32 y)) a b c
  | .jmpl a b c, s => s.branchPc (fun x y => decide (s32 x < s32 y)) a b c
  | .jmpr a, s => relativeTarget s.pc (s32 (s.readReg (registerOf a))) s.prog.length
  | _, s => s.nextPc

/-- The state with fault `f` recorded, or `t` when there is none. -/
def State.faultOr (s : State) (check : Option IndexFault) (t : State) : State :=
  match check with
  | some f => s.raiseIndexFault f.kind f.index
  | none => t

/-! ### The checks come first -/

theorem registerOf_of_eq {f : BitVec 8} {r : Fin 8} (h : f.toNat = r) : registerOf f = r := by
  simp [registerOf, h]

theorem addressOf_of_eq {f : BitVec 16} {a : Fin 256} (h : f.toNat = a) : addressOf f = a := by
  simp [addressOf, h]

theorem withRegister_eq (f : BitVec 8) (s : State) (body : Fin 8 → State) :
    withRegister f s body = s.faultOr (registerCheck f) (body (registerOf f)) := by
  obtain ⟨r, hr, h⟩ | ⟨hr, h⟩ := withRegister_cases f s body
  · rw [h, registerCheck_of_eq hr, registerOf_of_eq hr]; rfl
  · rw [h, registerCheck, if_pos (show 7 < f.toNat by omega)]; rfl

theorem withAddress_eq (f : BitVec 16) (s : State) (body : Fin 256 → State) :
    withAddress f s body = s.faultOr (addressCheck f) (body (addressOf f)) := by
  obtain ⟨a, ha, h⟩ | ⟨ha, h⟩ := withAddress_cases f s body
  · rw [h, addressOf_of_eq ha, addressCheck, if_neg (show ¬ 255 < f.toNat by omega)]; rfl
  · rw [h, addressCheck, if_pos (show 255 < f.toNat by omega)]; rfl

/-- Nested checks are one check, of the first that fails. -/
theorem State.faultOr_faultOr (s t : State) (check check' : Option IndexFault) :
    s.faultOr check (s.faultOr check' t) = s.faultOr (check.or check') t := by cases check <;> rfl

theorem withAluOperands_eq (a b : BitVec 8) (c : BitVec 16) (s : State) (body : Fin 8 → Word → Word → State) :
    withAluOperands a b c s body = s.faultOr ((registerCheck a).or (registerCheck b))
      (body (registerOf a) (s.readReg (registerOf b)) (s.resolve c)) := by
  rw [withAluOperands, withRegister_eq, withRegister_eq, State.faultOr_faultOr]

theorem conditionalJump_eq (taken : Word → Word → Bool) (a b : BitVec 8) (c : BitVec 16) (s : State) :
    conditionalJump taken a b c s =
      s.faultOr ((registerCheck a).or (registerCheck b)) (s.retire (s.branchPc taken a b c)) := by
  rw [conditionalJump, withRegister_eq, withRegister_eq, State.faultOr_faultOr, State.branchPc]

/-- R93: an execution is its index checks, and behind them its writes, its next pc and the step count. -/
theorem exec_eq (i : Instr) (s : State) :
    exec i s = .next (s.faultOr (indexCheck i) ((writeBack i s).retire (nextPcOf i s))) := by
  cases i with
  | mov a imm16 => exact congrArg _ (withRegister_eq ..)
  | add a b c => exact congrArg _ (withAluOperands_eq ..)
  | sub a b c => exact congrArg _ (withAluOperands_eq ..)
  | mul a b c => exact congrArg _ (withAluOperands_eq ..)
  | div a b c =>
    refine congrArg _ ((withAluOperands_eq ..).trans (congrArg _ ?_))
    rw [writeBack, apply_ite (State.retire · _)]
    rfl
  | and a b c => exact congrArg _ (withAluOperands_eq ..)
  | or a b c => exact congrArg _ (withAluOperands_eq ..)
  | str a imm16 =>
    refine congrArg _ ((withRegister_eq ..).trans ?_)
    rw [withAddress_eq, State.faultOr_faultOr]
    rfl
  | ld a imm16 =>
    refine congrArg _ ((withRegister_eq ..).trans ?_)
    rw [withAddress_eq, State.faultOr_faultOr]
    rfl
  | jmp imm16 => rfl
  | jmpe a b c => exact congrArg _ (conditionalJump_eq ..)
  | jmpn a b c => exact congrArg _ (conditionalJump_eq ..)
  | jmpg a b c => exact congrArg _ (conditionalJump_eq ..)
  | jmpl a b c => exact congrArg _ (conditionalJump_eq ..)
  | jmpr a => exact congrArg _ (withRegister_eq ..)
  | nop => rfl

theorem exec_of_indexCheck_some {i : Instr} {f : IndexFault} (h : indexCheck i = some f) (s : State) :
    exec i s = .next (s.raiseIndexFault f.kind f.index) := by rw [exec_eq, h]; rfl

theorem exec_of_indexCheck_none {i : Instr} (h : indexCheck i = none) (s : State) :
    exec i s = .next ((writeBack i s).retire (nextPcOf i s)) := by rw [exec_eq, h]; rfl

/-- An execution that answers `t` failed an index check and recorded it, or passed them and retired. -/
theorem exec_next_cases {i : Instr} {s t : State} (h : exec i s = .next t) :
    (∃ f, indexCheck i = some f ∧ t = s.raiseIndexFault f.kind f.index) ∨
      (indexCheck i = none ∧ t = (writeBack i s).retire (nextPcOf i s)) := by
  cases hcheck : indexCheck i with
  | some f => exact .inl ⟨f, rfl, Host.Outcome.next.inj (h.symm.trans (exec_of_indexCheck_some hcheck s))⟩
  | none => exact .inr ⟨rfl, Host.Outcome.next.inj (h.symm.trans (exec_of_indexCheck_none hcheck s))⟩

/-! ### What the writes and the next pc leave -/

section

variable (i : Instr) (s : State)

/-- The writes go to registers, flags and memory alone (40_sequencer.md R98). -/
theorem writeBack_frame : ∃ regs flags mem, writeBack i s = { s with regs := regs, flags := flags, mem := mem } := by
  cases i with
  | div a b c =>
    rw [writeBack]
    split
    · exact ⟨_, _, _, rfl⟩
    · exact ⟨_, _, _, rfl⟩
  | _ => exact ⟨_, _, _, rfl⟩

@[simp] theorem writeBack_stepCount : (writeBack i s).stepCount = s.stepCount := by
  obtain ⟨_, _, _, h⟩ := writeBack_frame i s; rw [h]
@[simp] theorem writeBack_fault : (writeBack i s).fault = s.fault := by
  obtain ⟨_, _, _, h⟩ := writeBack_frame i s; rw [h]
@[simp] theorem writeBack_prog : (writeBack i s).prog = s.prog := by
  obtain ⟨_, _, _, h⟩ := writeBack_frame i s; rw [h]
@[simp] theorem writeBack_params : (writeBack i s).params = s.params := by
  obtain ⟨_, _, _, h⟩ := writeBack_frame i s; rw [h]

end

/-- Only STR writes memory (20_memory.md R44). -/
theorem writeBack_mem_of_ne_str {i : Instr} (h : ∀ a imm16, i ≠ .str a imm16) (s : State) :
    (writeBack i s).mem = s.mem := by
  cases i with
  | str a imm16 => exact absurd rfl (h a imm16)
  | div a b c => rw [writeBack]; split <;> rfl
  | _ => rfl

/-- The writes leave every register but the one field A names, in the instructions that have a destination. -/
theorem readReg_writeBack_of_ne {i : Instr} {r : Fin 8} (h : ∀ a, destinationField i = some a → r ≠ registerOf a)
    (s : State) : (writeBack i s).readReg r = s.readReg r := by
  have write : ∀ {a : BitVec 8} {v : Word}, r ≠ registerOf a → (s.writeReg (registerOf a) v).readReg r = s.readReg r :=
    fun hr => s.readReg_writeReg_other _ r _ hr
  cases i with
  | mov a imm16 => exact write (h a rfl)
  | add a b c => exact write (h a rfl)
  | sub a b c => exact write (h a rfl)
  | mul a b c => exact write (h a rfl)
  | div a b c =>
    rw [writeBack]
    split
    · rfl
    · exact write (h a rfl)
  | and a b c => exact write (h a rfl)
  | or a b c => exact write (h a rfl)
  | ld a imm16 => exact write (h a rfl)
  | _ => rfl

theorem nextPcOf_of_not_isJump {i : Instr} (h : isJump i = false) (s : State) : nextPcOf i s = s.nextPc := by
  cases i with
  | jmp imm16 => cases h
  | jmpe a b c => cases h
  | jmpn a b c => cases h
  | jmpg a b c => cases h
  | jmpl a b c => cases h
  | jmpr a => cases h
  | _ => rfl

/-! ### A field that passes its check -/

theorem toNat_eq_registerOf {f : BitVec 8} (h : registerCheck f = none) : f.toNat = registerOf f := by
  have hlt : f.toNat < 8 := by
    by_contra hge
    rw [registerCheck, if_pos (show 7 < f.toNat by omega)] at h
    cases h
  exact (Nat.mod_eq_of_lt hlt).symm

theorem toNat_eq_addressOf {f : BitVec 16} (h : addressCheck f = none) : f.toNat = addressOf f := by
  have hlt : f.toNat < 256 := by
    by_contra hge
    rw [addressCheck, if_pos (show 255 < f.toNat by omega)] at h
    cases h
  exact (Nat.mod_eq_of_lt hlt).symm

/-- An instruction whose checks pass names its destination (40_sequencer.md R96, item 1). -/
theorem toNat_eq_registerOf_destination {i : Instr} {a : BitVec 8} (hcheck : indexCheck i = none)
    (ha : destinationField i = some a) : a.toNat = registerOf a := by
  cases i with
  | mov a' imm16 => cases ha; exact toNat_eq_registerOf hcheck
  | add a' b c => cases ha; exact toNat_eq_registerOf (Option.or_eq_none_iff.1 hcheck).1
  | sub a' b c => cases ha; exact toNat_eq_registerOf (Option.or_eq_none_iff.1 hcheck).1
  | mul a' b c => cases ha; exact toNat_eq_registerOf (Option.or_eq_none_iff.1 hcheck).1
  | div a' b c => cases ha; exact toNat_eq_registerOf (Option.or_eq_none_iff.1 hcheck).1
  | and a' b c => cases ha; exact toNat_eq_registerOf (Option.or_eq_none_iff.1 hcheck).1
  | or a' b c => cases ha; exact toNat_eq_registerOf (Option.or_eq_none_iff.1 hcheck).1
  | ld a' imm16 => cases ha; exact toNat_eq_registerOf (Option.or_eq_none_iff.1 hcheck).1
  | _ => cases ha

/-! ### Every step answers -/

theorem step_next (s : State) : ∃ t, step s = .next t := by
  obtain hready | ⟨c, hhalted⟩ := status_eq_ready_or_halted s
  · obtain ⟨w, hw⟩ := fetch_of_ready hready
    rw [step_of_ready hready hw]
    cases decode s.params.legacyOverlap w with
    | instr i => exact exec_next i s
    | undefined op => exact ⟨_, rfl⟩
  · exact ⟨_, step_of_halted hhalted⟩

end Sys2Proof.Machine
end

section
/-! The invariant of a run (40_sequencer.md R100; 00_scope.md R9; 10_state.md R30; 60_exceptions.md R165). -/

namespace Sys2Proof.Machine

/-- Only the step count of a retiring execution can break the invariant, and a Ready core has budget left. -/
theorem State.Inv.retire {s : State} (hs : s.Inv) (hready : status s = .ready) {mem : Memory}
    (hmem : Memory.wf s.mem = true → Memory.wf mem = true) (regs : Vector Word 8) (flags : Flags) (npc : Word) :
    (({ s with regs := regs, flags := flags, mem := mem } : State).retire npc).Inv := by
  obtain ⟨hwf, -, hprog, hcap, hfault⟩ := hs
  obtain ⟨-, -, hbudget⟩ := (status_ready_iff s).1 hready
  exact ⟨hmem hwf, hbudget, hprog, hcap, hfault⟩

theorem State.Inv.raiseIndexFault {s : State} (hs : s.Inv) {f : IndexFault} (hf : f.wf = true) :
    (s.raiseIndexFault f.kind f.index).Inv := by
  obtain ⟨hwf, hcount, hprog, hcap, -⟩ := hs
  refine ⟨hwf, hcount, hprog, hcap, fun g hg => ?_⟩
  obtain rfl : f = g := Option.some.inj hg
  exact hf

/-- Settles O14, from what one step and one execution can do: a halted core writes its flags alone, a fault names a bad
index, and anything else retires. -/
theorem everyStepKeepsTheInvariant : Obligations.EveryStepKeepsTheInvariant := by
  intro s t hs hstep
  obtain ⟨-, rfl⟩ | ⟨w, hready, -, ⟨op, -, rfl⟩ | ⟨i, -, hexec⟩⟩ := step_cases hstep
  · exact hs
  · exact hs.retire hready id s.regs s.flags s.nextPc
  · obtain ⟨f, hf, rfl⟩ | ⟨regs, flags, mem, npc, hmem, rfl⟩ := exec_cases hexec
    · exact hs.raiseIndexFault hf
    · exact hs.retire hready hmem regs flags npc

end Sys2Proof.Machine
end

section
/-! The flags are an output alone (10_state.md R26): nothing but the flags of the next state depends on the flags. -/

namespace Sys2Proof.Machine

theorem State.SameButFlags.exists_eq_withFlags {s s' : State} (h : s.SameButFlags s') : ∃ f, s' = s.withFlags f :=
  ⟨s'.flags, (congrArg (State.withFlags · s'.flags) h).symm⟩

theorem State.SameButFlags.retire {s s' : State} (h : s.SameButFlags s') (npc : Word) :
    (s.retire npc).SameButFlags (s'.retire npc) := by
  obtain ⟨f, rfl⟩ := h.exists_eq_withFlags
  rfl

theorem nextPcOf_withFlags (i : Instr) (s : State) (f : Flags) : nextPcOf i (s.withFlags f) = nextPcOf i s := by
  cases i <;> rfl

theorem writeBack_withFlags (i : Instr) (s : State) (f : Flags) :
    (writeBack i s).SameButFlags (writeBack i (s.withFlags f)) := by
  cases i with
  | div a b c =>
    rw [writeBack, writeBack, State.resolve_withFlags]
    split <;> rfl
  | _ => rfl

theorem exec_withFlags (i : Instr) (s : State) (f : Flags) :
    ∃ t t', exec i s = .next t ∧ exec i (s.withFlags f) = .next t' ∧ t.SameButFlags t' := by
  cases hcheck : indexCheck i with
  | some fault => exact ⟨_, _, exec_of_indexCheck_some hcheck s, exec_of_indexCheck_some hcheck _, rfl⟩
  | none =>
    refine ⟨_, _, exec_of_indexCheck_none hcheck s, exec_of_indexCheck_none hcheck _, ?_⟩
    rw [nextPcOf_withFlags]
    exact (writeBack_withFlags i s f).retire _

/-- The status and the fetched word do not depend on the flags, so two states that differ in the flags take the same
kind of step. -/
theorem step_withFlags (s : State) (f : Flags) :
    ∃ t t', step s = .next t ∧ step (s.withFlags f) = .next t' ∧ t.SameButFlags t' := by
  obtain hready | ⟨c, hhalted⟩ := status_eq_ready_or_halted s
  · obtain ⟨w, hw⟩ := fetch_of_ready hready
    rw [step_of_ready hready hw, step_of_ready (s := s.withFlags f) hready hw, State.withFlags_params]
    cases decode s.params.legacyOverlap w with
    | instr i => exact exec_withFlags i s f
    | undefined op => exact ⟨_, _, rfl, rfl, rfl⟩
  · exact ⟨_, _, step_of_halted hhalted, step_of_halted (s := s.withFlags f) hhalted, rfl⟩

/-- Settles O37, by induction on the number of steps: a step from two states that differ in the flags alone gives two
such states again. -/
theorem runsIgnoreTheFlags : Obligations.RunsIgnoreTheFlags := by
  intro k
  induction k with
  | zero => exact fun s s' h => ⟨s, s', rfl, rfl, h⟩
  | succ k ih =>
    intro s s' h
    obtain ⟨f, rfl⟩ := h.exists_eq_withFlags
    obtain ⟨t, t', ht, ht', hsame⟩ := step_withFlags s f
    rw [run_succ_of_step k ht, run_succ_of_step k ht']
    exact ih t t' hsame

end Sys2Proof.Machine
end

section
/-! Index checks and faults (40_sequencer.md R96; 60_exceptions.md R170 to R173). -/

namespace Sys2Proof.Machine

/-- Settles O39: `exec_eq` puts the checks in front of the writes, and neither the writes nor the retirement touch the
fault. -/
theorem failedIndexCheckIsAPreciseFault : Obligations.FailedIndexCheckIsAPreciseFault := by
  refine fun i s => ⟨fun f hcheck => exec_of_indexCheck_some hcheck s, fun hcheck => ?_⟩
  refine ⟨_, exec_of_indexCheck_none hcheck s, ?_, ?_⟩
  · rw [State.retire_fault, writeBack_fault]
  · rw [State.retire_stepCount, writeBack_stepCount]

theorem registerCheck_of_gt {f : BitVec 8} (h : 7 < f.toNat) : registerCheck f = some ⟨.register, f.toNat⟩ := if_pos h

theorem registerCheck_of_le {f : BitVec 8} (h : f.toNat ≤ 7) : registerCheck f = none := if_neg (Nat.not_lt.2 h)

theorem addressCheck_of_gt {f : BitVec 16} (h : 255 < f.toNat) : addressCheck f = some ⟨.memory, f.toNat⟩ := if_pos h

/-- Settles O40: the index check of each listed instruction has the first failing value for its result. -/
theorem indexFaultsComeInOperandOrder : Obligations.IndexFaultsComeInOperandOrder := by
  intro a b c imm16 s
  refine ⟨fun ha i hi => exec_of_indexCheck_some (f := ⟨.register, a.toNat⟩) ?fieldA s,
    fun ha hb i hi => exec_of_indexCheck_some (f := ⟨.register, b.toNat⟩) ?fieldB s,
    fun ha haddr i hi => exec_of_indexCheck_some (f := ⟨.memory, imm16.toNat⟩) ?address s⟩
  case fieldA =>
    revert i
    simp [indexCheck, registerCheck_of_gt ha]
  case fieldB =>
    revert i
    simp [indexCheck, registerCheck_of_le ha, registerCheck_of_gt hb]
  case address =>
    revert i
    simp [indexCheck, registerCheck_of_le ha, addressCheck_of_gt haddr]

end Sys2Proof.Machine
end

section
/-! The frame of an execution (10_state.md R25; 20_memory.md R51; 40_sequencer.md R98): each fact is one of the writes'
(`writeBack`), and an index fault keeps what they keep. -/

namespace Sys2Proof.Machine

theorem writeBack_flags_of_isJump {i : Instr} (h : isJump i = true) (s : State) : (writeBack i s).flags = s.flags := by
  cases i with
  | jmp imm16 => rfl
  | jmpe a b c => rfl
  | jmpn a b c => rfl
  | jmpg a b c => rfl
  | jmpl a b c => rfl
  | jmpr a => rfl
  | _ => cases h

/-- Settles O38: MOV, LD, the jumps and NOP write no flags, AND, OR and STR write them all false, and a fault writes
only its record. -/
theorem flagsChangeOnlyByTheirWriters : Obligations.FlagsChangeOnlyByTheirWriters := by
  intro i s t h
  obtain ⟨f, hcheck, rfl⟩ | ⟨hcheck, rfl⟩ := exec_next_cases h
  · exact ⟨fun _ => rfl, fun hnone => absurd (hcheck.symm.trans hnone) (by simp), fun _ _ => rfl⟩
  · refine ⟨fun hkeeps => ?_, fun _ hclears => ?_, fun f hf => absurd (hcheck.symm.trans hf) (by simp)⟩
    · rw [State.retire_flags]
      obtain hjump | rfl | ⟨a, imm16, rfl⟩ | ⟨a, imm16, rfl⟩ := hkeeps
      · exact writeBack_flags_of_isJump hjump s
      · rfl
      · rfl
      · rfl
    · obtain ⟨a, b, c, rfl⟩ | ⟨a, b, c, rfl⟩ | ⟨a, imm16, rfl⟩ := hclears
      · rfl
      · rfl
      · rfl

theorem str_or_ne_str (i : Instr) : (∃ a imm16, i = .str a imm16) ∨ ∀ a imm16, i ≠ .str a imm16 := by
  by_cases h : ∃ a imm16, i = .str a imm16
  · exact .inl h
  · exact .inr fun a imm16 hi => h ⟨a, imm16, hi⟩

/-- STR writes no register, and no cell but the one its address field names. -/
theorem frame_of_exec_str {a : BitVec 8} {imm16 : BitVec 16} {s t : State} (h : exec (.str a imm16) s = .next t) :
    t.regs = s.regs ∧ ∀ addr, addr ≠ imm16.toNat → Memory.read t.mem addr = Memory.read s.mem addr := by
  obtain ⟨f, -, rfl⟩ | ⟨hcheck, rfl⟩ := exec_next_cases h
  · exact ⟨rfl, fun _ _ => rfl⟩
  · refine ⟨rfl, fun addr hother => Memory.read_write_other s.mem _ ?_⟩
    rwa [← toNat_eq_addressOf (Option.or_eq_none_iff.1 hcheck).2]

theorem mem_of_exec_ne_str {i : Instr} {s t : State} (hi : ∀ a imm16, i ≠ .str a imm16) (h : exec i s = .next t) :
    t.mem = s.mem := by
  obtain ⟨f, -, rfl⟩ | ⟨-, rfl⟩ := exec_next_cases h
  · rfl
  · exact writeBack_mem_of_ne_str hi s

theorem readReg_of_exec {i : Instr} {s t : State} {r : Fin 8} (h : exec i s = .next t)
    (hr : ∀ a, destinationField i = some a → a.toNat ≠ r) : t.readReg r = s.readReg r := by
  obtain ⟨f, -, rfl⟩ | ⟨hcheck, rfl⟩ := exec_next_cases h
  · rfl
  · refine readReg_writeBack_of_ne (fun a ha heq => hr a ha ?_) s
    rw [heq, toNat_eq_registerOf_destination hcheck ha]

theorem prog_params_of_exec {i : Instr} {s t : State} (h : exec i s = .next t) :
    t.prog = s.prog ∧ t.params = s.params := by
  obtain ⟨f, -, rfl⟩ | ⟨-, rfl⟩ := exec_next_cases h
  · exact ⟨rfl, rfl⟩
  · exact ⟨writeBack_prog i s, writeBack_params i s⟩

/-- Settles O18, from the frame of STR, which writes no register, and that of the others, which write no memory. -/
theorem executionWritesAtMostOneRegisterOrCell : Obligations.ExecutionWritesAtMostOneRegisterOrCell := by
  intro i s t h
  have hparts : t.regs = s.regs ∨ t.mem = s.mem := by
    obtain ⟨a, imm16, rfl⟩ | hi := str_or_ne_str i
    · exact .inl (frame_of_exec_str h).1
    · exact .inr (mem_of_exec_ne_str hi h)
  refine ⟨hparts, fun r => readReg_of_exec h, fun a imm16 hi => ?_, fun hi => mem_of_exec_ne_str hi h,
    prog_params_of_exec h⟩
  subst hi
  exact frame_of_exec_str h

/-- Settles O31: of all a step can do only an executed STR writes memory, and only at the address it names. -/
theorem cellChangesOnlyByAStoreToIt : Obligations.CellChangesOnlyByAStoreToIt := by
  intro s t addr hwf hstep hchanged
  obtain ⟨-, rfl⟩ | ⟨w, hready, hw, ⟨op, -, rfl⟩ | ⟨i, hdecode, hexec⟩⟩ := step_cases hstep
  · exact absurd rfl hchanged
  · exact absurd rfl hchanged
  obtain ⟨a, imm16, rfl⟩ | hi := str_or_ne_str i
  · have haddr : imm16.toNat = addr := by
      by_contra hother
      exact hchanged ((frame_of_exec_str hexec).2 addr (Ne.symm hother))
    obtain ⟨f, -, rfl⟩ | ⟨hcheck, rfl⟩ := exec_next_cases hexec
    · exact absurd rfl hchanged
    · obtain ⟨ha, hm⟩ := Option.or_eq_none_iff.1 hcheck
      obtain ⟨hfault, -, hbudget⟩ := (status_ready_iff s).1 hready
      refine ⟨w, a, imm16, registerOf a, ⟨hfault, hbudget, hw⟩, hdecode, haddr, toNat_eq_registerOf ha, ?_⟩
      rw [← haddr, toNat_eq_addressOf hm]
      exact Memory.read_write_same hwf _ _
  · exact absurd (congrArg (Memory.read · addr) (mem_of_exec_ne_str hi hexec)) hchanged

end Sys2Proof.Machine
end

section
/-! Status, progress and reports (40_sequencer.md R91 to R93, R99 to R107; 60_exceptions.md R165). -/

namespace Sys2Proof.Machine

/-! ### Status -/

theorem status_of_programEnd {s : State} (hfault : s.fault = none) (hpc : s.prog.length ≤ s.pc.toNat) :
    status s = .halted .programEnd := by
  simp [status, hfault, hpc]

theorem status_of_budgetExceeded {s : State} (hfault : s.fault = none) (hpc : s.pc.toNat < s.prog.length)
    (hbudget : s.params.stepBudget ≤ s.stepCount) : status s = .halted .stepBudgetExceeded := by
  simp [status, hfault, hpc, hbudget]

/-- Settles O11: the four cases of the status, in the order of R91. -/
theorem haltCausesHaveAFixedPrecedence : Obligations.HaltCausesHaveAFixedPrecedence := fun s =>
  ⟨fun _ => status_of_fault, status_of_programEnd, status_of_budgetExceeded,
    fun hfault hpc hbudget => (status_ready_iff s).2 ⟨hfault, hpc, hbudget⟩⟩

/-- Settles O44: the operation is the assignment to `pc`, and the status of its result is that of any state. -/
theorem setProgramCounterWritesOnlyThePc : Obligations.SetProgramCounterWritesOnlyThePc := fun s v =>
  ⟨rfl, fun hfault hpc => status_of_programEnd (s := s.setProgramCounter v) hfault hpc,
    fun hfault hpc hbudget => (status_ready_iff (s.setProgramCounter v)).2 ⟨hfault, hpc, hbudget⟩,
    fun _ hfault => status_of_fault (s := s.setProgramCounter v) hfault⟩

/-! ### Halted steps -/

theorem stepCondition_of_halted {s : State} {c : HaltCause} (h : status s = .halted c) :
    stepCondition s = .halted c := by simp only [stepCondition, h]

/-- A halted core stays halted and its flags stay false, so any number of steps does what one does. -/
theorem run_succ_of_halted (k : Nat) {s : State} {c : HaltCause} (h : status s = .halted c) :
    run (k + 1) s = .next (haltedStep s) := by
  induction k generalizing s with
  | zero => exact run_succ_of_step 0 (step_of_halted h)
  | succ k ih => rw [run_succ_of_step _ (step_of_halted h)]; exact ih (s := haltedStep s) h

/-- Settles O12, by induction on the number of steps. -/
theorem haltedCoreOnlyClearsItsFlags : Obligations.HaltedCoreOnlyClearsItsFlags := fun k _ _ h =>
  ⟨run_succ_of_halted k h, stepCondition_of_halted h⟩

/-! ### Ready steps -/

theorem decodedCondition_of_indexCheck_some {i : Instr} {f : IndexFault} (h : indexCheck i = some f) :
    decodedCondition (.instr i) = .indexFault f := by simp only [decodedCondition, h]

/-- Settles O9: the step and its condition are those of the decoded word. -/
theorem readyStepRunsTheDecodedInstruction : Obligations.ReadyStepRunsTheDecodedInstruction := by
  intro s w i hready hdecode
  refine ⟨?step, fun hcheck => ?passed, fun f hcheck => ?failed⟩
  case step => rw [hready.step_eq, hdecode]; rfl
  case passed => rw [hready.stepCondition_eq, hdecode, decodedCondition_of_indexCheck_none hcheck]
  case failed => rw [hready.stepCondition_eq, hdecode, decodedCondition_of_indexCheck_some hcheck]

theorem stepCondition_of_ready {s : State} {w : Word} (h : status s = .ready) (hw : fetch s = some w) :
    stepCondition s = decodedCondition (decode s.params.legacyOverlap w) := by simp only [stepCondition, h, hw]

/-- A step of a Ready core counts one executed word and reports code 0 or 3, or records the fault it reports. -/
theorem step_of_ready_cases {s t : State} (hready : status s = .ready) (h : step s = .next t) :
    (((stepCondition s).code = 0 ∨ (stepCondition s).code = 3) ∧ t.fault = none ∧
        t.stepCount = s.stepCount + 1 ∧ t.params = s.params) ∨
      ∃ f, stepCondition s = .indexFault f ∧ t = s.raiseIndexFault f.kind f.index := by
  obtain ⟨w, hw⟩ := fetch_of_ready hready
  obtain ⟨hfault, -, -⟩ := (status_ready_iff s).1 hready
  rw [step_of_ready hready hw] at h
  rw [stepCondition_of_ready hready hw]
  cases hdecode : decode s.params.legacyOverlap w with
  | undefined op =>
    rw [hdecode] at h
    obtain rfl : undefinedOpcode s = t := Host.Outcome.next.inj h
    exact .inl ⟨.inr rfl, hfault, rfl, rfl⟩
  | instr i =>
    rw [hdecode] at h
    obtain ⟨f, hcheck, ht⟩ | ⟨hcheck, rfl⟩ := exec_next_cases h
    · exact .inr ⟨f, decodedCondition_of_indexCheck_some hcheck, ht⟩
    · refine .inl ⟨.inl (congrArg _ (decodedCondition_of_indexCheck_none hcheck)), ?_, ?_, writeBack_params i s⟩
      · rw [State.retire_fault, writeBack_fault, hfault]
      · rw [State.retire_stepCount, writeBack_stepCount]

/-! ### Reports -/

/-- What a condition code says of the step from `s` to `t` (60_exceptions.md R165). -/
def CodeDescribes (code : Nat) (s t : State) : Prop :=
  (code = 1 ∨ code = 2 → t = { s with flags := Flags.allFalse } ∧ status t = status s) ∧
  (code = 4 → ∃ n, status t = .halted (.fault ⟨.register, n⟩) ∧ t.stepCount = s.stepCount ∧ t.pc = s.pc) ∧
  (code = 5 → ∃ n, status t = .halted (.fault ⟨.memory, n⟩) ∧ t.stepCount = s.stepCount ∧ t.pc = s.pc) ∧
  (code = 0 ∨ code = 3 → s.fault = none ∧ t.fault = none ∧ t.stepCount = s.stepCount + 1) ∧
  code ≤ 5

theorem codeDescribes_of_fault {s t : State} {f : IndexFault} (hstatus : status t = .halted (.fault f))
    (hcount : t.stepCount = s.stepCount) (hpc : t.pc = s.pc) : CodeDescribes (HaltCause.code (.fault f)) s t := by
  obtain ⟨kind, n⟩ := f
  cases kind with
  | register =>
    change CodeDescribes 4 s t
    exact ⟨by omega, fun _ => ⟨n, hstatus, hcount, hpc⟩, by omega, by omega, by omega⟩
  | memory =>
    change CodeDescribes 5 s t
    exact ⟨by omega, by omega, fun _ => ⟨n, hstatus, hcount, hpc⟩, by omega, by omega⟩

theorem codeDescribes_haltedStep {code : Nat} (hcode : code = 1 ∨ code = 2) (s : State) :
    CodeDescribes code s (haltedStep s) :=
  ⟨fun _ => ⟨rfl, rfl⟩, by omega, by omega, by omega, by omega⟩

/-- A halted step reports the cause of the halt again, and leaves it. -/
theorem codeDescribes_of_halted {s : State} {c : HaltCause} (h : status s = .halted c) :
    CodeDescribes c.code s (haltedStep s) := by
  cases c with
  | fault f => exact codeDescribes_of_fault (t := haltedStep s) h rfl rfl
  | programEnd => exact codeDescribes_haltedStep (.inl rfl) s
  | stepBudgetExceeded => exact codeDescribes_haltedStep (.inr rfl) s

theorem codeDescribes_of_counted {s t : State} {code : Nat} (hcode : code = 0 ∨ code = 3) (hs : s.fault = none)
    (ht : t.fault = none) (hcount : t.stepCount = s.stepCount + 1) : CodeDescribes code s t :=
  ⟨by omega, by omega, by omega, fun _ => ⟨hs, ht, hcount⟩, by omega⟩

theorem codeDescribes_step {s t : State} (h : step s = .next t) : CodeDescribes (stepCondition s).code s t := by
  obtain hready | ⟨c, hhalted⟩ := status_eq_ready_or_halted s
  · obtain ⟨hcode, hfault, hcount, -⟩ | ⟨f, hcond, rfl⟩ := step_of_ready_cases hready h
    · exact codeDescribes_of_counted hcode ((status_ready_iff s).1 hready).1 hfault hcount
    · rw [hcond]
      exact codeDescribes_of_fault (status_of_fault rfl) rfl rfl
  · obtain rfl : haltedStep s = t := Host.Outcome.next.inj ((step_of_halted hhalted).symm.trans h)
    rw [stepCondition_of_halted hhalted]
    exact codeDescribes_of_halted hhalted

theorem stepReport_of_step {s t : State} (h : step s = .next t) :
    stepReport s = some (snapshot t (stepCondition s)) := by simp only [stepReport, h]

/-- Settles O13: every step answers, and its condition code describes it, whether the core is halted, faults, or counts
an executed word. -/
theorem everyStepAnswersAndReportsItsCondition : Obligations.EveryStepAnswersAndReportsItsCondition := by
  intro s
  obtain ⟨t, ht⟩ := step_next s
  exact ⟨t, ht, stepReport_of_step ht, codeDescribes_step ht⟩

/-! ### Every run halts -/

theorem exists_run_halted (n : Nat) (s : State) (hn : s.params.stepBudget - s.stepCount = n) :
    ∃ k t, k ≤ n ∧ run k s = .next t ∧ t.Halted := by
  induction n generalizing s with
  | zero =>
    obtain hready | hhalted := status_eq_ready_or_halted s
    · obtain ⟨-, -, hbudget⟩ := (status_ready_iff s).1 hready
      omega
    · exact ⟨0, s, le_rfl, rfl, hhalted⟩
  | succ n ih =>
    obtain hready | hhalted := status_eq_ready_or_halted s
    · obtain ⟨t, ht⟩ := step_next s
      obtain ⟨-, -, hcount, hparams⟩ | ⟨f, -, rfl⟩ := step_of_ready_cases hready ht
      · obtain ⟨k, t', hk, hrun, hhalted⟩ := ih t (by rw [hparams, hcount]; omega)
        exact ⟨k + 1, t', by omega, (run_succ_of_step k ht).trans hrun, hhalted⟩
      · exact ⟨1, _, by omega, run_succ_of_step 0 ht, _, status_of_fault rfl⟩
    · exact ⟨0, s, by omega, rfl, hhalted⟩

/-- Settles O16, by induction on what the budget has left: a step of a Ready core halts it or takes one of that. -/
theorem everyRunHaltsWithinTheStepBudget : Obligations.EveryRunHaltsWithinTheStepBudget := fun s =>
  exists_run_halted _ s rfl

/-! ### The program counter -/

theorem State.branchPc_eq_or (s : State) (taken : Word → Word → Bool) (a b : BitVec 8) (c : BitVec 16) :
    s.branchPc taken a b c = jumpTarget c ∨ s.branchPc taken a b c = s.nextPc := by
  unfold State.branchPc
  split
  · exact .inl rfl
  · exact .inr rfl

/-- The three ways `pc` is written: a raw 16-bit target, the increment, and JMPR's increment of a clamped index
(40_sequencer.md R97). -/
theorem nextPcOf_cases (i : Instr) (s : State) :
    (∃ target : BitVec 16, nextPcOf i s = jumpTarget target) ∨ nextPcOf i s = s.nextPc ∨
      ∃ offset, nextPcOf i s = relativeTarget s.pc offset s.prog.length := by
  have branch : ∀ {taken a b c}, (∃ target : BitVec 16, s.branchPc taken a b c = jumpTarget target) ∨
      s.branchPc taken a b c = s.nextPc ∨ ∃ offset, s.branchPc taken a b c = relativeTarget s.pc offset s.prog.length :=
    fun {taken a b c} => (s.branchPc_eq_or taken a b c).elim (fun h => .inl ⟨c, h⟩) fun h => .inr (.inl h)
  cases i with
  | jmp imm16 => exact .inl ⟨imm16, rfl⟩
  | jmpe a b c => simp only [nextPcOf]; exact branch
  | jmpn a b c => simp only [nextPcOf]; exact branch
  | jmpg a b c => simp only [nextPcOf]; exact branch
  | jmpl a b c => simp only [nextPcOf]; exact branch
  | jmpr a => exact .inr (.inr ⟨_, rfl⟩)
  | _ => exact .inr (.inl rfl)

theorem nextPc_toNat {s : State} (hpc : s.pc.toNat < s.prog.length) (hlen : s.prog.length < 4294967295) :
    s.nextPc.toNat = s.pc.toNat + 1 := by
  rw [State.nextPc, BitVec.toNat_add, BitVec.toNat_ofNat]
  omega

theorem nextPcOf_toNat_le (i : Instr) {s : State} (hpc : s.pc.toNat < s.prog.length)
    (hlen : s.prog.length < 4294967295) : (nextPcOf i s).toNat ≤ max 65535 (s.prog.length + 1) := by
  obtain ⟨target, h⟩ | h | ⟨offset, h⟩ := nextPcOf_cases i s
  · have := target.isLt
    rw [h, jumpTarget_toNat]
    omega
  · rw [h, nextPc_toNat hpc hlen]
    omega
  · have hclamp := clampedIndex_bounds s.pc offset s.prog.length
    have htarget := relativeTarget_toNat s.pc offset hlen
    rw [h]
    omega

theorem State.Inv.prog_length_lt {s : State} (hs : s.Inv) : s.prog.length < 4294967295 := by
  obtain ⟨-, -, hprog, hcap, -⟩ := hs
  exact hprog.trans_lt (of_decide_eq_true hcap)

/-- Settles O17: the next pc is a 16-bit target, one past the present one, or one past a clamped index, and R9's bound
on the program keeps the increment from wrapping. -/
theorem programCounterNeverWraps : Obligations.ProgramCounterNeverWraps := by
  intro s t w hs hready hstep
  obtain ⟨-, hpc, -⟩ := (status_ready_iff s).1 hready.status_eq
  have hlen := hs.prog_length_lt
  rw [hready.step_eq] at hstep
  cases hdecode : decode s.params.legacyOverlap w with
  | undefined op =>
    rw [hdecode] at hstep
    obtain rfl : undefinedOpcode s = t := Host.Outcome.next.inj hstep
    refine ⟨?_, fun i hi => nomatch hi⟩
    rw [undefinedOpcode_pc, nextPc_toNat hpc hlen]
    omega
  | instr i =>
    rw [hdecode] at hstep
    obtain ⟨f, -, rfl⟩ | ⟨-, rfl⟩ := exec_next_cases hstep
    · exact ⟨by rw [State.raiseIndexFault_pc]; omega, fun _ _ _ hfault => nomatch hfault⟩
    · refine ⟨nextPcOf_toNat_le i hpc hlen, fun j hj hjump _ => ?_⟩
      obtain rfl : i = j := Decoded.instr.inj hj
      rw [State.retire_pc, nextPcOf_of_not_isJump hjump, nextPc_toNat hpc hlen]

end Sys2Proof.Machine
end

section
/-! Sequences of host operations (70_reset_and_hazards.md R187 to R191, R199), by one induction over the sequence. -/

namespace Sys2Proof.Machine

/-- A property that every operation of a sequence answers to and keeps is answered to and kept by the sequence. -/
theorem hostRun_next_of_kept {P : State → Prop} {ops : List HostOp}
    (h : ∀ op ∈ ops, ∀ s, P s → ∃ t, hostOp op s = .next t ∧ P t) {s : State} (hs : P s) :
    ∃ t, hostRun ops s = .next t ∧ P t := by
  induction ops generalizing s with
  | nil => exact ⟨s, rfl, hs⟩
  | cons op ops ih =>
    rw [List.forall_mem_cons] at h
    obtain ⟨hop, hops⟩ := h
    obtain ⟨t, ht, hPt⟩ := hop s hs
    rw [hostRun_cons_of_next ops ht]
    exact ih hops hPt

/-! ### The invariant -/

theorem inv_construct {p : Params} (hp : p.capacityOk = true) (words : List Word) : (construct p words).Inv := by
  refine ⟨Memory.wf_nil, Nat.zero_le _, ?_, hp, fun f hf => nomatch hf⟩
  rw [length_construct_prog]
  exact Nat.min_le_left ..

theorem reset_eq_construct : State.reset = construct Params.default [] := by
  simp [construct, State.reset]

/-- Settles O15: `State.reset` is the engine constructed with no words. -/
theorem constructedEngineSatisfiesTheInvariant : Obligations.ConstructedEngineSatisfiesTheInvariant :=
  ⟨reset_eq_construct ▸ inv_construct rfl [], fun _ words hp => inv_construct hp words⟩

theorem State.Inv.hostReset {s : State} (hs : s.Inv) : s.hostReset.Inv := by
  obtain ⟨-, -, hprog, hcap, -⟩ := hs
  exact ⟨Memory.wf_nil, Nat.zero_le _, hprog, hcap, fun f hf => nomatch hf⟩

theorem inv_hostOp (op : HostOp) {s : State} (hs : s.Inv) : ∃ t, hostOp op s = .next t ∧ t.Inv := by
  cases op with
  | step =>
    obtain ⟨t, ht⟩ := step_next s
    exact ⟨t, ht, everyStepKeepsTheInvariant s t hs ht⟩
  | reset => exact ⟨_, rfl, hs.hostReset⟩
  | setProgramCounter v => exact ⟨_, rfl, hs⟩
  | configureStepInterval v => exact ⟨_, rfl, hs⟩

/-- Settles O46: each host operation keeps the invariant. -/
theorem hostOperationsKeepTheInvariant : Obligations.HostOperationsKeepTheInvariant := by
  intro ops s t hs hrun
  obtain ⟨t', hrun', ht'⟩ := hostRun_next_of_kept (fun op _ _ => inv_hostOp op) hs
  obtain rfl : t' = t := Host.Outcome.next.inj (hrun'.symm.trans hrun)
  exact ht'

/-! ### A recorded fault -/

/-- The fault `f` is recorded, and registers, memory and step count are those of `s`. -/
def KeepsFault (f : IndexFault) (s t : State) : Prop :=
  t.fault = some f ∧ t.regs = s.regs ∧ t.mem = s.mem ∧ t.stepCount = s.stepCount

theorem keepsFault_hostOp {f : IndexFault} {s t : State} {op : HostOp} (hop : op ≠ .reset) (h : KeepsFault f s t) :
    ∃ u, hostOp op t = .next u ∧ KeepsFault f s u := by
  have hfault : t.fault = some f := h.1
  cases op with
  | step => exact ⟨haltedStep t, step_of_halted (status_of_fault hfault), h⟩
  | reset => exact absurd rfl hop
  | setProgramCounter v => exact ⟨_, rfl, h⟩
  | configureStepInterval v => exact ⟨_, rfl, h⟩

/-- Settles O41: a step of a faulted core is a halted one, and no other operation but `reset()` touches the fault. -/
theorem faultIsStickyUntilReset : Obligations.FaultIsStickyUntilReset := by
  intro ops s f hfault hops
  obtain ⟨t, hrun, ht, hregs, hmem, hcount⟩ := hostRun_next_of_kept (P := KeepsFault f s)
    (fun op hop _ => keepsFault_hostOp (hops op hop)) ⟨hfault, rfl, rfl, rfl⟩
  exact ⟨t, hrun, ht, hregs, hmem, hcount, t.hostReset_fault⟩

/-! ### The program and the parameters -/

theorem prog_params_of_step {s t : State} (h : step s = .next t) : t.prog = s.prog ∧ t.params = s.params := by
  obtain ⟨-, rfl⟩ | ⟨w, -, -, ⟨op, -, rfl⟩ | ⟨i, -, hexec⟩⟩ := step_cases h
  · exact ⟨rfl, rfl⟩
  · exact ⟨rfl, rfl⟩
  · exact prog_params_of_exec hexec

theorem prog_params_hostOp (op : HostOp) {s t : State} (h : t.prog = s.prog ∧ t.params = s.params) :
    ∃ u, hostOp op t = .next u ∧ u.prog = s.prog ∧ u.params = s.params := by
  cases op with
  | step =>
    obtain ⟨u, hu⟩ := step_next t
    obtain ⟨hprog, hparams⟩ := prog_params_of_step hu
    exact ⟨u, hu, hprog.trans h.1, hparams.trans h.2⟩
  | reset => exact ⟨_, rfl, h⟩
  | setProgramCounter v => exact ⟨_, rfl, h⟩
  | configureStepInterval v => exact ⟨_, rfl, h⟩

/-- `reset()` depends on the program and the parameters alone (D17). -/
theorem hostReset_congr {s t : State} (hprog : t.prog = s.prog) (hparams : t.params = s.params) :
    t.hostReset = s.hostReset := by
  rw [State.hostReset, hprog, hparams, State.hostReset]

/-- Settles O43: no host operation writes the program or the parameters, and a constructed engine is its own reset. -/
theorem resetGivesAFreshEngine : Obligations.ResetGivesAFreshEngine := by
  intro ops p words
  obtain ⟨t, hrun, hprog, hparams⟩ := hostRun_next_of_kept
    (P := fun t => t.prog = (construct p words).prog ∧ t.params = (construct p words).params)
    (fun op _ _ => prog_params_hostOp op) ⟨rfl, rfl⟩
  exact ⟨t, hrun, hostReset_congr hprog hparams, hprog, hparams⟩

end Sys2Proof.Machine
end

section
/-! The assembler (30_encoding.md R70 to R89): the word of a line has the opcode byte of the mnemonic's catalog row. -/

namespace Sys2Proof.Machine

/-! ### The catalog -/

theorem isCatalogByte_of_mem_catalog : ∀ row ∈ catalog, IsCatalogByte row.2.1 := by
  unfold IsCatalogByte
  decide

theorem isCatalogByte_of_catalogLookup {mnemonic : List Char} {op : BitVec 8} {format : Format}
    (h : catalogLookup mnemonic = some (op, format)) : IsCatalogByte op := by
  obtain ⟨before, after, hcatalog, -⟩ := List.lookup_eq_some_iff.1 h
  have hmem : (mnemonic, op, format) ∈ catalog := by rw [hcatalog]; simp
  exact isCatalogByte_of_mem_catalog _ hmem

/-! ### Register tokens -/

theorem parseRegister_registerToken : ∀ r : Fin 8, parseRegister (registerToken r) = some (BitVec.ofNat 8 r) := by
  decide

theorem registerOperand_registerToken (r : Fin 8) : registerOperand (registerToken r) = .ok (BitVec.ofNat 8 r) := by
  rw [registerOperand, parseRegister_registerToken]

theorem thirdOperand_registerToken (legacy : Bool) (r : Fin 8) :
    thirdOperand legacy (registerToken r) = .ok ((BitVec.ofNat 8 r).setWidth 16) := by
  rw [thirdOperand, parseRegister_registerToken]

theorem assembleTokens_of_catalogLookup {mnemonic : List Char} {op : BitVec 8} {format : Format}
    (h : catalogLookup mnemonic = some (op, format)) (legacy : Bool) (operands : List (List Char)) :
    assembleTokens legacy (mnemonic :: operands) = packOperands legacy op format operands := by
  rw [assembleTokens, h]

/-- Settles O7: the third operand of a register name is below 256, so under either layout it leaves field B as it is. -/
theorem assembledRegisterLineDecodesToItsRegisters : Obligations.AssembledRegisterLineDecodesToItsRegisters := by
  intro legacy mnemonic op a b c hrow
  have hfits : thirdFieldFits false (BitVec.ofNat 8 b) ((BitVec.ofNat 8 c).setWidth 16) = true := by
    rw [thirdFieldFits_default, BitVec.toNat_setWidth_of_le (by decide)]
    exact BitVec.isLt _
  refine ⟨encodeR3 op (BitVec.ofNat 8 a) (BitVec.ofNat 8 b) ((BitVec.ofNat 8 c).setWidth 16), ?_, ?_, ?_, ?_, ?_⟩
  · rw [assembleTokens_of_catalogLookup hrow, packOperands, registerOperand_registerToken,
      registerOperand_registerToken, thirdOperand_registerToken]
    rfl
  · rw [opcodeField_encodeR3]
  · rw [fieldA_encodeR3, BitVec.toNat_ofNat]
    omega
  · rw [fieldB_encodeR3_of_fits hfits, BitVec.toNat_ofNat]
    omega
  · rw [fieldC_encodeR3_of_fits hfits, BitVec.toNat_setWidth_of_le (by decide), BitVec.toNat_ofNat]
    omega

/-! ### Every assembled word -/

/-- A bind that succeeds is two computations that do. -/
theorem exists_of_bind_eq_ok {α β : Type} {x : Except AsmError α} {f : α → Except AsmError β} {b : β}
    (h : x >>= f = .ok b) : ∃ a, x = .ok a ∧ f a = .ok b := by
  cases x with
  | ok a => exact ⟨a, rfl, h⟩
  | error e => cases h

/-- Whatever the format and its operands, the packed word has the opcode byte it was packed with. -/
theorem opcodeField_of_packOperands {legacy : Bool} {op : BitVec 8} {format : Format} {operands : List (List Char)}
    {w : Word} (h : packOperands legacy op format operands = .ok w) : opcodeField w = op := by
  unfold packOperands at h
  split at h
  case h_1 x y z =>
    obtain ⟨a, -, h⟩ := exists_of_bind_eq_ok h
    obtain ⟨b, -, h⟩ := exists_of_bind_eq_ok h
    obtain ⟨c, -, h⟩ := exists_of_bind_eq_ok h
    cases h
    exact opcodeField_encodeR3 op a b c
  case h_2 x y =>
    obtain ⟨a, -, h⟩ := exists_of_bind_eq_ok h
    obtain ⟨imm16, -, h⟩ := exists_of_bind_eq_ok h
    cases h
    exact opcodeField_encodeRI op a imm16
  case h_3 x =>
    obtain ⟨imm16, -, h⟩ := exists_of_bind_eq_ok h
    cases h
    exact opcodeField_encodeJ op imm16
  case h_4 x =>
    obtain ⟨a, -, h⟩ := exists_of_bind_eq_ok h
    cases h
    exact opcodeField_encodeR1 op a
  case h_5 =>
    obtain rfl : encodeN op = w := Except.ok.inj h
    exact opcodeField_encodeN op
  case h_6 => exact absurd h (by simp)

theorem isCatalogByte_of_assembleTokens {legacy : Bool} {tokens : List (List Char)} {w : Word}
    (h : assembleTokens legacy tokens = .ok w) : IsCatalogByte (opcodeField w) := by
  cases tokens with
  | nil => cases h
  | cons mnemonic operands =>
    cases hrow : catalogLookup mnemonic with
    | none => rw [assembleTokens, hrow] at h; cases h
    | some row =>
      rw [assembleTokens_of_catalogLookup hrow] at h
      rw [opcodeField_of_packOperands h]
      exact isCatalogByte_of_catalogLookup hrow

theorem exists_decode_of_assemble {legacy : Bool} {line : List Char} {w : Word} (h : assemble legacy line = .ok w) :
    ∃ i, decode legacy w = .instr i :=
  (exists_decode_instr_iff legacy w).2 (isCatalogByte_of_assembleTokens h)

/-- A text assembles when each of its lines does, and its words are theirs in order (R89). -/
theorem forall₂_of_assembleAll {legacy : Bool} {lines : List (List Char)} {ws : List Word}
    (h : assembleAll legacy lines = some ws) : List.Forall₂ (fun line w => assemble legacy line = .ok w) lines ws := by
  induction lines generalizing ws with
  | nil => cases h; exact .nil
  | cons line rest ih =>
    unfold assembleAll at h
    split at h
    case h_1 w ws' hline hrest => cases h; exact .cons hline (ih hrest)
    case h_2 => cases h

/-- Settles O8: the words are those of the lines, one each, and a word that some line assembles to has a catalog byte. -/
theorem assembledTextIsOneInstructionPerLine : Obligations.AssembledTextIsOneInstructionPerLine := by
  intro legacy lines ws h
  obtain ⟨hlength, hword⟩ := List.forall₂_iff_get.1 (forall₂_of_assembleAll h)
  refine ⟨hlength.symm, fun n line hline => ?_⟩
  obtain ⟨hn, rfl⟩ := List.getElem?_eq_some_iff.1 hline
  have hw : assemble legacy lines[n] = .ok ws[n] := hword n hn (hlength ▸ hn)
  obtain ⟨i, hi⟩ := exists_decode_of_assemble hw
  exact ⟨ws[n], i, List.getElem?_eq_getElem _, hw, hi⟩

end Sys2Proof.Machine
end

section
/-! Signed 32-bit arithmetic (00_scope.md R14, R15): bounds, truncation, signs and division toward zero. -/

namespace Sys2Proof.Machine

theorem s32_bounds (v : Word) : -2147483648 ≤ s32 v ∧ s32 v ≤ 2147483647 := by
  have hlower : -2 ^ 31 ≤ v.toInt := v.le_toInt
  have hupper : v.toInt < 2 ^ 31 := v.toInt_lt
  rw [s32]
  omega

theorem inRange32_iff (z : Int) : inRange32 z = true ↔ -2147483648 ≤ z ∧ z ≤ 2147483647 := decide_eq_true_iff

/-- Truncation changes a value by a multiple of `2^32`. -/
theorem exists_wraps_trunc32 (z : Int) : ∃ k, z = s32 (trunc32 z) + 4294967296 * k := by
  obtain ⟨k, hk⟩ : ((2 ^ 32 : Nat) : Int) ∣ z - z.bmod (2 ^ 32) := Int.dvd_self_sub_bmod
  refine ⟨k, ?_⟩
  rw [s32, trunc32, BitVec.toInt_ofInt]
  omega

theorem s32_trunc32_of_inRange32 {z : Int} (h : inRange32 z = true) : s32 (trunc32 z) = z := by
  obtain ⟨k, hk⟩ := exists_wraps_trunc32 z
  have hz := (inRange32_iff z).1 h
  have hbounds := s32_bounds (trunc32 z)
  omega

theorem inRange32_s32 (v : Word) : inRange32 (s32 v) = true := (inRange32_iff _).2 (s32_bounds v)

theorem sign_eq_msb (v : Word) : sign v = v.msb := v.msb_eq_getLsbD_last.symm

theorem sign_eq_decide (v : Word) : sign v = decide (s32 v < 0) := by rw [sign_eq_msb, BitVec.msb_eq_toInt]

theorem natAbs_tmod_lt (x : Int) {y : Int} (hy : y ≠ 0) : (x.tmod y).natAbs < y.natAbs := by
  rw [Int.natAbs_tmod]
  exact Nat.mod_lt _ (Int.natAbs_pos.2 hy)

/-- A quotient of 32-bit values fits, but for `INT_MIN / -1`: it is no larger than the dividend, so only `2^31` could
fail to fit, and the remainder is too small for a second pair to have that quotient. -/
theorem inRange32_tdiv {x y : Int} (hx : inRange32 x = true) (h : ¬ (x = -2147483648 ∧ y = -1)) :
    inRange32 (x.tdiv y) = true := by
  rw [inRange32_iff] at hx ⊢
  have hle : (x.tdiv y).natAbs ≤ x.natAbs := Int.natAbs_tdiv_le_natAbs x y
  have hne : x.tdiv y ≠ 2147483648 := by
    intro hq
    have hy : y ≠ 0 := by
      rintro rfl
      rw [Int.tdiv_zero] at hq
      cases hq
    have hsplit : y * x.tdiv y + x.tmod y = x := Int.mul_tdiv_add_tmod x y
    have hsmall := natAbs_tmod_lt x hy
    rw [hq] at hsplit
    omega
  omega

theorem s32_div32 {x y : Word} (h : ¬ (s32 x = -2147483648 ∧ s32 y = -1)) : s32 (div32 x y) = (s32 x).tdiv (s32 y) :=
  s32_trunc32_of_inRange32 (inRange32_tdiv (inRange32_s32 x) h)

end Sys2Proof.Machine
end

section
/-! The flags of the arithmetic instructions (41_alu.md R110 to R115, R120; 10_state.md R25). -/

namespace Sys2Proof.Machine

theorem ofResult_z (r : Word) (c v : Bool) : (Flags.ofResult r c v).z = decide (r = 0#32) := by
  rw [Flags.ofResult, decide_eq_decide]
  exact BitVec.toNat_inj (y := 0#32)

/-- R120: V of ADD is the exact sum out of range. -/
theorem addFlags_v (x y : Word) : (addFlags x y).v = !inRange32 (s32 x + s32 y) := by
  change (sign x == sign y && sign (addResult x y) != sign x) = _
  obtain ⟨k, hk⟩ := exists_wraps_trunc32 (s32 x + s32 y)
  have hr := s32_bounds (addResult x y)
  have hx := s32_bounds x
  have hy := s32_bounds y
  change s32 x + s32 y = s32 (addResult x y) + _ at hk
  rw [sign_eq_decide, sign_eq_decide, sign_eq_decide, Bool.eq_iff_iff]
  simp only [Bool.and_eq_true, beq_iff_eq, bne_iff_ne, ne_eq, decide_eq_decide, Bool.not_eq_true', ← Bool.not_eq_true,
    inRange32_iff]
  omega

/-- R120: V of SUB is the exact difference out of range. -/
theorem subFlags_v (x y : Word) : (subFlags x y).v = !inRange32 (s32 x - s32 y) := by
  change (sign x != sign y && sign (subResult x y) != sign x) = _
  obtain ⟨k, hk⟩ := exists_wraps_trunc32 (s32 x - s32 y)
  have hr := s32_bounds (subResult x y)
  have hx := s32_bounds x
  have hy := s32_bounds y
  change s32 x - s32 y = s32 (subResult x y) + _ at hk
  rw [sign_eq_decide, sign_eq_decide, sign_eq_decide, Bool.eq_iff_iff]
  simp only [Bool.and_eq_true, bne_iff_ne, ne_eq, decide_eq_decide, Bool.not_eq_true', ← Bool.not_eq_true,
    inRange32_iff]
  omega

theorem addFlags_c_iff (x y : Word) : (addFlags x y).c = true ↔ 2147483647 < s32 x + s32 y := decide_eq_true_iff

/-- Settles O27: the two laws of V, and a sum above `INT_MAX` has no negative operand and is out of range. -/
theorem overflowFlagsMeanResultOutOfRange : Obligations.OverflowFlagsMeanResultOutOfRange := by
  refine fun x y => ⟨addFlags_v x y, subFlags_v x y, fun hc => ?_⟩
  have hsum := (addFlags_c_iff x y).1 hc
  have hx := s32_bounds x
  have hy := s32_bounds y
  refine ⟨show 0 ≤ s32 x by omega, show 0 ≤ s32 y by omega, ?_⟩
  rw [addFlags_v, Bool.not_eq_true', ← Bool.not_eq_true, inRange32_iff]
  omega

theorem mulFlags_c (x y : Word) : (mulFlags x y).c = !inRange32 (s32 x * s32 y) := by
  change decide (s32 x * s32 y < -2147483648 ∨ s32 x * s32 y > 2147483647) = _
  rw [Bool.eq_iff_iff, Bool.not_eq_true', ← Bool.not_eq_true, inRange32_iff, decide_eq_true_iff]
  omega

theorem mulFlags_v_iff (x y : Word) :
    (mulFlags x y).v = true ↔ s32 x ≠ 0 ∧ s32 (div32 (mulResult x y) x) ≠ s32 y := decide_eq_true_iff

/-- A product in range is divided back to its second factor. -/
theorem s32_div32_mulResult {x y : Word} (hx : s32 x ≠ 0) (h : inRange32 (s32 x * s32 y) = true) :
    s32 (div32 (mulResult x y) x) = s32 y := by
  have hback : (s32 (mulResult x y)).tdiv (s32 x) = s32 y := by
    rw [mulResult, s32_trunc32_of_inRange32 h, Int.mul_tdiv_cancel_left _ hx]
  rw [div32, quotTz, hback, s32_trunc32_of_inRange32 (inRange32_s32 y)]

/-- A product that the divide-back check takes for exact is in range, but for `-1 * INT_MIN` (D11): the low word differs
from the exact product by a remainder smaller than the divisor and by a multiple of `2^32`, so by nothing. -/
theorem inRange32_of_s32_div32_mulResult {x y : Word} (hx : s32 x ≠ 0) (hcorner : ¬ (s32 x = -1 ∧ s32 y = -2147483648))
    (h : s32 (div32 (mulResult x y) x) = s32 y) : inRange32 (s32 x * s32 y) = true := by
  have hdivisor : ¬ (s32 (mulResult x y) = -2147483648 ∧ s32 x = -1) := by
    rintro ⟨hmin, hneg⟩
    refine hcorner ⟨hneg, ?_⟩
    rw [← h, div32, hmin, hneg]
    decide
  rw [s32_div32 hdivisor] at h
  have hsplit : s32 x * (s32 (mulResult x y)).tdiv (s32 x) + (s32 (mulResult x y)).tmod (s32 x) =
      s32 (mulResult x y) := Int.mul_tdiv_add_tmod _ _
  have hsmall := natAbs_tmod_lt (s32 (mulResult x y)) hx
  obtain ⟨k, hk⟩ := exists_wraps_trunc32 (s32 x * s32 y)
  change s32 x * s32 y = s32 (mulResult x y) + _ at hk
  have hbounds := s32_bounds x
  rw [h] at hsplit
  have hexact : s32 x * s32 y = s32 (mulResult x y) := by omega
  rw [hexact]
  exact inRange32_s32 _

/-- R120: V of MUL is C, but for `-1 * INT_MIN` (D11). -/
theorem mulFlags_v_eq_c {x y : Word} (hcorner : ¬ (s32 x = -1 ∧ s32 y = -2147483648)) :
    (mulFlags x y).v = (mulFlags x y).c := by
  rw [mulFlags_c, Bool.eq_iff_iff, mulFlags_v_iff, Bool.not_eq_true', ← Bool.not_eq_true]
  constructor
  · exact fun ⟨hx, hback⟩ hrange => hback (s32_div32_mulResult hx hrange)
  · intro hrange
    have hx : s32 x ≠ 0 := fun hzero => hrange (by rw [hzero, Int.zero_mul]; rfl)
    exact ⟨hx, fun hback => hrange (inRange32_of_s32_div32_mulResult hx hcorner hback)⟩

/-- Operands of one sign are ordered alike as signed and as unsigned numbers. -/
theorem s32_lt_iff_of_msb_eq {x y : Word} (h : x.msb = y.msb) : s32 x < s32 y ↔ x.toNat < y.toNat := by
  have hx := x.isLt
  have hy := y.isLt
  rw [BitVec.msb_eq_decide, BitVec.msb_eq_decide, decide_eq_decide] at h
  simp only [s32, BitVec.toInt_eq_toNat_cond]
  split <;> split <;> omega

end Sys2Proof.Machine
end

section
/-! The ALU instructions that pass their index checks (41_alu.md R112 to R117). -/

namespace Sys2Proof.Machine

section

variable {a b : BitVec 8} {rd rs : Fin 8} (ha : a.toNat = rd) (hb : b.toNat = rs) (c : BitVec 16) (s : State)
include ha hb

theorem exec_add_of_eq : exec (.add a b c) s = .next (s.writeResult rd (addResult (s.readReg rs) (s.resolve c))
    (addFlags (s.readReg rs) (s.resolve c))) := congrArg _ (withAluOperands_of_eq ha hb c s _)

theorem exec_sub_of_eq : exec (.sub a b c) s = .next (s.writeResult rd (subResult (s.readReg rs) (s.resolve c))
    (subFlags (s.readReg rs) (s.resolve c))) := congrArg _ (withAluOperands_of_eq ha hb c s _)

theorem exec_mul_of_eq : exec (.mul a b c) s = .next (s.writeResult rd (mulResult (s.readReg rs) (s.resolve c))
    (mulFlags (s.readReg rs) (s.resolve c))) := congrArg _ (withAluOperands_of_eq ha hb c s _)

theorem exec_div_of_nonzero_divisor (hzero : s.resolve c ≠ 0#32) :
    exec (.div a b c) s = .next (s.writeResult rd (div32 (s.readReg rs) (s.resolve c))
      (divFlags (s.readReg rs) (s.resolve c))) := by
  have hsigned : s32 (s.resolve c) ≠ 0 := fun h => hzero (BitVec.toInt_inj.1 h)
  rw [exec_div_of_eq ha hb, if_neg hsigned]

theorem exec_and_of_eq : exec (.and a b c) s = .next (s.writeResult rd (s.readReg rs &&& s.resolve c)
    Flags.allFalse) := congrArg _ (withAluOperands_of_eq ha hb c s _)

theorem exec_or_of_eq : exec (.or a b c) s = .next (s.writeResult rd (s.readReg rs ||| s.resolve c)
    Flags.allFalse) := congrArg _ (withAluOperands_of_eq ha hb c s _)

end

/-- Settles O20, from ADD's execution. -/
theorem addWritesTheWrappedSumAndItsFlags : Obligations.AddWritesTheWrappedSumAndItsFlags := by
  refine fun a b c rd rs s ha hb => ⟨_, _, exec_add_of_eq ha hb c s, rfl, ofResult_z _ _ _, rfl, rfl, ?_⟩
  rw [← sign_eq_msb, ← sign_eq_msb, ← sign_eq_msb]
  rfl

/-- Settles O21, from SUB's execution; its carry is a signed comparison, which is the unsigned one when the operands have
one sign. -/
theorem subWritesTheWrappedDifferenceAndItsFlags : Obligations.SubWritesTheWrappedDifferenceAndItsFlags := by
  refine fun a b c rd rs s ha hb => ⟨_, _, exec_sub_of_eq ha hb c s, rfl, ofResult_z _ _ _, rfl, fun hsign => ?_, ?_⟩
  · exact decide_eq_decide.2 (s32_lt_iff_of_msb_eq hsign)
  · rw [← sign_eq_msb, ← sign_eq_msb, ← sign_eq_msb]
    rfl

/-- Settles O22, from MUL's execution and the laws of its C and V. -/
theorem mulWritesTheLowProductAndItsFlags : Obligations.MulWritesTheLowProductAndItsFlags := fun _ _ c _ _ s ha hb =>
  ⟨_, _, exec_mul_of_eq ha hb c s, rfl, ofResult_z _ _ _, rfl, mulFlags_c _ _, mulFlags_v_eq_c⟩

theorem divFlags_eq {x y : Word} (h : ¬ (s32 x = -2147483648 ∧ s32 y = -1)) :
    divFlags x y = ⟨decide (div32 x y = 0#32), decide (s32 (div32 x y) < 0), false, false⟩ := by
  have hv : decide (s32 x = intMin ∧ s32 y = -1) = false := decide_eq_false h
  rw [divFlags, hv, ← ofResult_z _ false false]
  rfl

/-- R119: a negative quotient has operands of opposite signs. -/
theorem neg_iff_pos_of_tdiv_neg {x y : Int} (h : x.tdiv y < 0) : x < 0 ↔ 0 < y := by
  constructor
  · intro hx
    by_contra hy
    have := Int.tdiv_nonneg_of_nonpos_of_nonpos hx.le (not_lt.1 hy)
    omega
  · intro hy
    by_contra hx
    have := Int.tdiv_nonneg (not_lt.1 hx) hy.le
    omega

/-- R119: a positive quotient has operands of one sign. -/
theorem neg_iff_neg_of_tdiv_pos {x y : Int} (h : 0 < x.tdiv y) : x < 0 ↔ y < 0 := by
  constructor
  · intro hx
    by_contra hy
    have := Int.tdiv_nonneg (neg_nonneg.2 hx.le) (not_lt.1 hy)
    rw [Int.neg_tdiv] at this
    omega
  · intro hy
    by_contra hx
    have := Int.tdiv_nonpos_of_nonneg_of_nonpos (not_lt.1 hx) hy.le
    omega

/-- Settles O23: the quotient fits, so the register reads as the exact quotient toward zero. -/
theorem divWritesTheQuotientTowardZero : Obligations.DivWritesTheQuotientTowardZero := by
  intro a b c rd rs s ha hb hzero hcorner
  have hquot : (div32 (s.readReg rs) (s.resolve c)).toInt = (s.readReg rs).toInt.tdiv (s.resolve c).toInt :=
    s32_div32 hcorner
  refine ⟨div32 (s.readReg rs) (s.resolve c), ?_, ?_, ?_, ?_⟩
  · rw [exec_div_of_nonzero_divisor ha hb c s hzero, divFlags_eq hcorner]
    rfl
  · rw [hquot]
    exact Int.natAbs_tdiv _ _
  · rw [hquot]
    exact neg_iff_pos_of_tdiv_neg
  · rw [hquot]
    exact neg_iff_neg_of_tdiv_pos

/-- Settles O26, from the executions of AND and OR and the bits of their results. -/
theorem andOrAreBitwiseAndClearTheFlags : Obligations.AndOrAreBitwiseAndClearTheFlags := fun _ _ c _ _ s ha hb =>
  ⟨⟨_, exec_and_of_eq ha hb c s, fun _ => BitVec.getLsbD_and⟩,
    ⟨_, exec_or_of_eq ha hb c s, fun _ => BitVec.getLsbD_or⟩⟩

theorem readReg_writeResult_same (s : State) (rd : Fin 8) (r : Word) (f : Flags) :
    (s.writeResult rd r f).readReg rd = r := by
  rw [State.writeResult, State.readReg_retire, State.readReg_setFlags, State.readReg_writeReg_same]

theorem writeResult_flags (s : State) (rd : Fin 8) (r : Word) (f : Flags) : (s.writeResult rd r f).flags = f := rfl

/-- Settles O25, from the executions of SUB, DIV and MUL: the borrow of SUB is a comparison of its operands, and the two
corners are each one pair of operands. -/
theorem decidedCornersOfTheAlu : Obligations.DecidedCornersOfTheAlu := by
  intro a b c rd rs s ha hb
  refine ⟨⟨_, exec_sub_of_eq ha hb c s, ?_⟩, fun hx hy => ⟨_, exec_div_of_nonzero_divisor ha hb c s ?_, ?_, ?_⟩,
    fun hx hy => ⟨_, exec_mul_of_eq ha hb c s, ?_, ?_⟩⟩
  · exact decide_eq_decide.2 sub_neg.symm
  · rw [hy]; decide
  · rw [readReg_writeResult_same, hx, hy]; decide
  · rw [writeResult_flags, hx, hy]; decide
  · rw [readReg_writeResult_same, hx, hy]; decide
  · rw [writeResult_flags, hx, hy]; decide

end Sys2Proof.Machine
end

section
/-! STR and LD whose index checks pass (42_load_store.md R130, R131). -/

namespace Sys2Proof.Machine

/-- Settles O28, from STR's execution and the laws of a write to canonical memory. -/
theorem strStoresTheRegisterAndClearsTheFlags : Obligations.StrStoresTheRegisterAndClearsTheFlags :=
  fun _ imm16 ra s ha haddr hwf =>
    ⟨Memory.write s.mem imm16.toNat (s.readReg ra), exec_str_of_eq (addr := ⟨imm16.toNat, haddr⟩) ha rfl s,
      Memory.wf_write hwf ⟨imm16.toNat, haddr⟩ _, Memory.read_write_same hwf _ _,
      fun _ hother => Memory.read_write_other s.mem _ hother⟩

/-- Settles O29: LD's execution. -/
theorem ldLoadsTheCellAndKeepsTheFlags : Obligations.LdLoadsTheCellAndKeepsTheFlags :=
  fun _ imm16 _ s ha haddr => exec_ld_of_eq (addr := ⟨imm16.toNat, haddr⟩) ha rfl s

end Sys2Proof.Machine
end

section
/-! Control transfer and NOP that pass their index checks (43_branch.md R140 to R148; 44_nop_invalid.md R155). -/

namespace Sys2Proof.Machine

/-- Settles O32: neither has an index check, so each is its retirement. -/
theorem jmpAndNopWriteOnlyTheProgramCounter : Obligations.JmpAndNopWriteOnlyTheProgramCounter := fun imm16 s =>
  ⟨exec_of_indexCheck_none (i := .jmp imm16) rfl s, exec_of_indexCheck_none (i := .nop) rfl s⟩

/-! ### The conditional jumps -/

/-- A conditional jump whose checks pass goes where its comparison says, in whatever words that is said. -/
theorem conditionalJump_of_iff {a b : BitVec 8} {ra rb : Fin 8} (ha : a.toNat = ra) (hb : b.toNat = rb)
    {taken : Word → Word → Bool} {s : State} {p : Prop} [Decidable p]
    (h : taken (s.readReg ra) (s.readReg rb) = true ↔ p) (c : BitVec 16) :
    conditionalJump taken a b c s = s.retire (if p then jumpTarget c else s.nextPc) := by
  rw [conditionalJump_of_eq ha hb]
  simp only [h]

/-- Settles O33: each of the four is the shared jump with its own comparison; patterns are equal when their signed
values are. -/
theorem conditionalJumpsCompareTwoRegisters : Obligations.ConditionalJumpsCompareTwoRegisters := by
  intro a b c ra rb s ha hb
  refine ⟨?jmpe, ?jmpn, ?jmpg, ?jmpl⟩
  case jmpe =>
    rintro p rfl
    exact congrArg _ (conditionalJump_of_iff ha hb (decide_eq_true_iff.trans BitVec.toInt_inj.symm) c)
  case jmpn =>
    rintro p rfl
    exact congrArg _ (conditionalJump_of_iff ha hb (decide_eq_true_iff.trans BitVec.toInt_inj.symm.not) c)
  case jmpg =>
    rintro p rfl
    exact congrArg _ (conditionalJump_of_iff ha hb decide_eq_true_iff c)
  case jmpl =>
    rintro p rfl
    exact congrArg _ (conditionalJump_of_iff ha hb decide_eq_true_iff c)

/-! ### JMPR -/

theorem clampedIndex_of_inside {pc : Word} {offset : Int} {len : Nat} (hlower : 0 ≤ (pc.toNat : Int) + offset)
    (hupper : (pc.toNat : Int) + offset < len) : clampedIndex pc offset len = (pc.toNat : Int) + offset := by
  rw [clampedIndex, if_neg (by omega)]

theorem clampedIndex_of_outside {pc : Word} {offset : Int} {len : Nat}
    (h : (pc.toNat : Int) + offset < 0 ∨ (len : Int) ≤ (pc.toNat : Int) + offset) :
    clampedIndex pc offset len = len := by
  rw [clampedIndex, if_pos h]

/-- JMPR whose register check passes (R145). -/
theorem exec_jmpr_of_eq {a : BitVec 8} {ra : Fin 8} (ha : a.toNat = ra) (s : State) :
    exec (.jmpr a) s = .next (s.retire (relativeTarget s.pc (s32 (s.readReg ra)) s.prog.length)) :=
  congrArg _ (withRegister_of_eq ha s _)

/-- Settles O34, from the two sides of the clamp and the increment after it, which does not wrap (R9). -/
theorem jmprGoesOnePastTheClampedSum : Obligations.JmprGoesOnePastTheClampedSum := by
  intro a ra s ha hlen
  have htarget := relativeTarget_toNat s.pc (s32 (s.readReg ra)) hlen
  refine ⟨_, exec_jmpr_of_eq ha s, fun hlower hupper => ?_, fun houtside => ?_⟩
  · rw [htarget, clampedIndex_of_inside hlower hupper]
  · rw [clampedIndex_of_outside houtside] at htarget
    omega

/-- Settles O35: the clamp keeps the index from 0 to L, so the landing is from 1 to `L + 1`; and for a landing on `q` the
offset `q - 1 - pc` fits a register, since both indices are within a program of `2^31` words. -/
theorem jmprReachesEveryIndexButZero : Obligations.JmprReachesEveryIndexButZero := by
  intro s ra a ha hpc hlen
  refine ⟨fun t ht => ?range, fun q hq1 hqL => ?reach⟩
  case range =>
    obtain rfl := Host.Outcome.next.inj ((exec_jmpr_of_eq ha s).symm.trans ht)
    have hclamp := clampedIndex_bounds s.pc (s32 (s.readReg ra)) s.prog.length
    have htarget := relativeTarget_toNat s.pc (s32 (s.readReg ra)) (len := s.prog.length) (by omega)
    rw [State.retire_pc]
    omega
  case reach =>
    have hoffset : s32 (trunc32 ((q : Int) - 1 - s.pc.toNat)) = (q : Int) - 1 - s.pc.toNat :=
      s32_trunc32_of_inRange32 ((inRange32_iff _).2 (by omega))
    refine ⟨trunc32 ((q : Int) - 1 - s.pc.toNat), _, exec_jmpr_of_eq ha _, ?_, rfl⟩
    have htarget := relativeTarget_toNat s.pc ((q : Int) - 1 - s.pc.toNat) (len := s.prog.length) (by omega)
    rw [clampedIndex_of_inside (by omega) (by omega)] at htarget
    rw [State.retire_pc, State.readReg_writeReg_same, State.writeReg_pc, State.writeReg_prog, hoffset]
    omega

end Sys2Proof.Machine
end
